-- ==== Sys2Proof/Word.lean ====
section
/-! DEFINITION. The widths of the ports of the two units (spec/10_state.md R23, R24, R26). -/

namespace Sys2Proof

/-- One lane of a window: a byte (R10, R40). -/
abbrev Byte := BitVec 8

/-- A Value: `enc_value` and `dec_value`, 64 bits, unsigned (R6, R23, R24). -/
abbrev Value := BitVec 64

/-- A window: `enc_window` and `dec_window`, 72 bits; lane `i` is bits `[8i+7:8i]` (R10, R23, R24). -/
abbrev Window := BitVec 72

/-- A length output: `enc_len` and `dec_len`, 4-bit unsigned binary (R23, R24, R127, R158). -/
abbrev Length := BitVec 4

/-- The byte enables `enc_be`, one bit for each lane (R23, R125). -/
abbrev ByteEnables := BitVec 9

end Sys2Proof
end

