-- ==== Sys2Proof/Machine/Operands.lean ====
section
/-! DEFINITION. The operand forms: lanes of a window, the little-endian reads and writes of spec/00_scope.md R10 and R11,
and the nine window forms of spec/30_encoding.md R63. -/

namespace Sys2Proof

/-! ## Lanes -/

/-- Lane `i` of a window: bits `[8i+7:8i]` (R10, R23, R42). -/
def lane (w : Window) (i : Nat) : Byte := w.extractLsb' (8 * i) 8

/-- The window with lane `i` replaced by `b`. -/
def setLane (w : Window) (i : Nat) (b : Byte) : Window :=
  (w &&& ~~~(0xFF#72 <<< (8 * i))) ||| (b.setWidth 72 <<< (8 * i))

/-- `LE(W, a, k)`: the sum over `j` in `[0, k)` of `W[a+j] * 2^(8j)` (R10). -/
def le (w : Window) (a : Nat) : Nat → Nat
  | 0 => 0
  | k + 1 => le w a k + (lane w (a + k)).toNat * 2 ^ (8 * k)

/-- `MemRead(a, 8)` (R11): the 64-bit little-endian view of lanes `[a, a+8)`. `a = 0` is `low` (R151) and `a = 1` is the
raw value of form L9 (R157), the two overlapping views of R43. -/
def memRead64 (w : Window) (a : Nat) : Value := BitVec.ofNat 64 (le w a 8)

/-- Byte `j` of `bytesLE(v, k)`: `v[8j+7:8j]` (R10). -/
def byteLE (v : Value) (j : Nat) : Byte := v.extractLsb' (8 * j) 8

/-- `MemWrite(a, n, v)` (R11) on the window lanes: lanes `[a, a+n)` carry `bytesLE(v, n)`, the others stay. -/
def memWrite (w : Window) (a : Nat) : Nat → Value → Window
  | 0, _ => w
  | n + 1, v => setLane (memWrite w a n v) (a + n) (byteLE v n)

/-! ## The windows of the nine forms (R61 to R63): `n-1` zero bits, the marker bit, the payload, the ignored tail -/

def windowL1 (payload : BitVec 7) (tail : BitVec 64) : Window := tail ++ payload ++ 0b1#1
def windowL2 (payload : BitVec 14) (tail : BitVec 56) : Window := tail ++ payload ++ 0b10#2
def windowL3 (payload : BitVec 21) (tail : BitVec 48) : Window := tail ++ payload ++ 0b100#3
def windowL4 (payload : BitVec 28) (tail : BitVec 40) : Window := tail ++ payload ++ 0b1000#4
def windowL5 (payload : BitVec 35) (tail : BitVec 32) : Window := tail ++ payload ++ 0b10000#5
def windowL6 (payload : BitVec 42) (tail : BitVec 24) : Window := tail ++ payload ++ 0b100000#6
def windowL7 (payload : BitVec 49) (tail : BitVec 16) : Window := tail ++ payload ++ 0b1000000#7
def windowL8 (payload : BitVec 56) (tail : BitVec 8) : Window := tail ++ payload ++ 0b10000000#8
def windowL9 (value : Value) : Window := value ++ 0x00#8

end Sys2Proof
end

