-- ==== Sys2Proof/Machine/RangePartition.lean ====
section
/-! DEFINITION. The Range Partition (spec/40_range_partition.md): the hard-wired constants both units read. No port reads
or writes them and they never change (R29, R32), so they are definitions and not fields of State (notes/assumptions/10). -/

namespace Sys2Proof

/-- `Offset[0] = 0` and `Offset[k] = Offset[k-1] + 2^(7k)` (R100). The table has the entries 0 to 8; `Offset[9]` is not
stored and stands for `2^64` (R102), so nothing asks for an entry past 8. -/
def offset : Nat → Nat
  | 0 => 0
  | k + 1 => offset k + 2 ^ (7 * (k + 1))

/-- `Offset[k]` as the 64-bit constant it is stored as (R29, R100). -/
def offsetWord (k : Nat) : Value := BitVec.ofNat 64 (offset k)

/-- Band classification (R110): how many of the boundaries `Offset[1]` to `Offset[8]` are at or below `v`, compared
unsigned (R121). -/
def band (v : Value) : Nat := (List.range' 1 8).countP fun k => decide (offset k ≤ v.toNat)

/-- The bound above band `k`: `Offset[k+1]`, or for B8 the `2^64` that `Offset[9]` stands for (R102, R103). -/
def bandEnd (k : Nat) : Nat := if k < 8 then offset (k + 1) else 2 ^ 64

/-- `Left[n] = 8*(8-n)` for `n` in `[1, 8]` (R106). -/
def left (n : Nat) : Nat := 8 * (8 - n)

/-- `Right[n] = Left[n] + n` for `n` in `[1, 8]` (R107): the value spec/90_conflicts.md C1 chooses, not the source's
printed `Left + 1`. -/
def right (n : Nat) : Nat := left n + n

end Sys2Proof
end

