-- ==== Sys2Proof/Syntax.lean ====
section
/-! DEFINITION. The operations of spec/30_encoding.md R74 as syntax: one constructor for each row of
spec/opcode_table.json. An ENC row's operand is `enc_value`; a DEC row's operands are the fields its row gives
`dec_window`: the payload `[8n-1:n]` and the ignored tail `[71:8n]`, or for L9 the raw value `[71:8]` (R63).
Notes/assumptions/13. -/

namespace Sys2Proof

inductive Instr where
  /-- DEC.L1 (R159) -/
  | decL1 (payload : BitVec 7) (tail : BitVec 64)
  /-- DEC.L2 (R160) -/
  | decL2 (payload : BitVec 14) (tail : BitVec 56)
  /-- DEC.L3 (R161) -/
  | decL3 (payload : BitVec 21) (tail : BitVec 48)
  /-- DEC.L4 (R162) -/
  | decL4 (payload : BitVec 28) (tail : BitVec 40)
  /-- DEC.L5 (R163) -/
  | decL5 (payload : BitVec 35) (tail : BitVec 32)
  /-- DEC.L6 (R164) -/
  | decL6 (payload : BitVec 42) (tail : BitVec 24)
  /-- DEC.L7 (R165) -/
  | decL7 (payload : BitVec 49) (tail : BitVec 16)
  /-- DEC.L8 (R166) -/
  | decL8 (payload : BitVec 56) (tail : BitVec 8)
  /-- DEC.L9 (R167) -/
  | decL9 (value : Value)
  /-- ENC.B0 (R128) -/
  | encB0 (value : Value)
  /-- ENC.B1 (R129) -/
  | encB1 (value : Value)
  /-- ENC.B2 (R130) -/
  | encB2 (value : Value)
  /-- ENC.B3 (R131) -/
  | encB3 (value : Value)
  /-- ENC.B4 (R132) -/
  | encB4 (value : Value)
  /-- ENC.B5 (R133) -/
  | encB5 (value : Value)
  /-- ENC.B6 (R134) -/
  | encB6 (value : Value)
  /-- ENC.B7 (R135) -/
  | encB7 (value : Value)
  /-- ENC.B8 (R136) -/
  | encB8 (value : Value)
  deriving DecidableEq, Repr

/-- What is on an input port. The unit whose port it is performs its one operation: nothing in the bits selects it
(R22, R74). -/
inductive PortWord where
  /-- `enc_value` of `varint_encoder` -/
  | encValue (value : Value)
  /-- `dec_window` of `varint_decoder` -/
  | decWindow (window : Window)
  deriving DecidableEq, Repr

end Sys2Proof
end

