-- ==== Sys2Proof/WellFormed.lean ====
section
/-! DEFINITION. Which terms are operations of the hardware. An ENC row is selected by the closed range of `enc_value` in
its `select` key (spec/30_encoding.md R72, spec/41_encoder.md R128 to R136). A DEC row's fields have exactly the widths
of R63, so every term of a DEC row is an operation (R69). -/

namespace Sys2Proof

/-- `v` lies in the closed range `[lo, hi]`, compared unsigned. -/
def inRange (v : Value) (lo hi : Nat) : Bool := decide (lo ≤ v.toNat) && decide (v.toNat ≤ hi)

def Instr.wellFormed : Instr → Bool
  | .decL1 _ _ => true
  | .decL2 _ _ => true
  | .decL3 _ _ => true
  | .decL4 _ _ => true
  | .decL5 _ _ => true
  | .decL6 _ _ => true
  | .decL7 _ _ => true
  | .decL8 _ _ => true
  | .decL9 _ => true
  | .encB0 v => inRange v 0 127
  | .encB1 v => inRange v 128 16511
  | .encB2 v => inRange v 16512 2113663
  | .encB3 v => inRange v 2113664 270549119
  | .encB4 v => inRange v 270549120 34630287487
  | .encB5 v => inRange v 34630287488 4432676798591
  | .encB6 v => inRange v 4432676798592 567382630219903
  | .encB7 v => inRange v 567382630219904 72624976668147839
  | .encB8 v => inRange v 72624976668147840 18446744073709551615

/-- The check as a proposition; `decide` runs on it. -/
abbrev Instr.WellFormed (i : Instr) : Prop := i.wellFormed = true

end Sys2Proof
end

