-- ==== Sys2Proof/Decode.lean ====
section
/-! DEFINITION. From what is on an input port to the case of the operation it selects, and back
(spec/30_encoding.md R60 to R74). Every window and every value selects a case (R69, R104): only a sequence of bytes that
is no whole window is rejected (R26, R201). -/

namespace Sys2Proof

/-! ## Decoding -/

/-- The form of a window is found by scanning lane 0 from bit 0 upward for the marker bit (R42, R65, R66); its fields are
those of R63. -/
def decodeWindow (w : Window) : Instr :=
  if w.getLsbD 0 then .decL1 (w.extractLsb' 1 7) (w.extractLsb' 8 64)
  else if w.getLsbD 1 then .decL2 (w.extractLsb' 2 14) (w.extractLsb' 16 56)
  else if w.getLsbD 2 then .decL3 (w.extractLsb' 3 21) (w.extractLsb' 24 48)
  else if w.getLsbD 3 then .decL4 (w.extractLsb' 4 28) (w.extractLsb' 32 40)
  else if w.getLsbD 4 then .decL5 (w.extractLsb' 5 35) (w.extractLsb' 40 32)
  else if w.getLsbD 5 then .decL6 (w.extractLsb' 6 42) (w.extractLsb' 48 24)
  else if w.getLsbD 6 then .decL7 (w.extractLsb' 7 49) (w.extractLsb' 56 16)
  else if w.getLsbD 7 then .decL8 (w.extractLsb' 8 56) (w.extractLsb' 64 8)
  else .decL9 (w.extractLsb' 8 64)

/-- The row of ENC that a value selects: the row of its band (R72, R110, R121). -/
def decodeValue (v : Value) : Instr :=
  match band v with
  | 0 => .encB0 v
  | 1 => .encB1 v
  | 2 => .encB2 v
  | 3 => .encB3 v
  | 4 => .encB4 v
  | 5 => .encB5 v
  | 6 => .encB6 v
  | 7 => .encB7 v
  | _ => .encB8 v

/-- The operation that the word on an input port selects. -/
def decode : PortWord → Instr
  | .encValue v => decodeValue v
  | .decWindow w => decodeWindow w

/-! ## Decoding bytes -/

/-- Why a sequence of bytes is no window. -/
inductive DecodeError where
  /-- fewer than 9 bytes: the precondition violation of R26 and R201 (93 U3), which the 72-bit port makes unrepresentable -/
  | shortWindow
  /-- more than 9 bytes -/
  | longWindow
  deriving DecidableEq, Repr

/-- The window whose lanes `0, 1, …` are the bytes of the list in order (R10); the lanes past the list are 0. -/
def windowOfBytes (bytes : List Byte) : Window :=
  match bytes with
  | [] => 0#72
  | b :: rest => (windowOfBytes rest <<< 8) ||| b.setWidth 72

/-- The lanes of a window, lane 0 first. -/
def bytesOfWindow (w : Window) : List Byte := (List.range 9).map (lane w)

/-- Decoding of a buffer given to the decoder: exactly 9 bytes make a window (R26). -/
def decodeBytes (bytes : List Byte) : Except DecodeError Instr :=
  if bytes.length < 9 then .error .shortWindow
  else if 9 < bytes.length then .error .longWindow
  else .ok (decodeWindow (windowOfBytes bytes))

/-! ## Encoding -/

/-- The word that selects a well-formed operation, laid out by the field positions of R63. -/
def encode : Instr → PortWord
  | .decL1 payload tail => .decWindow (windowL1 payload tail)
  | .decL2 payload tail => .decWindow (windowL2 payload tail)
  | .decL3 payload tail => .decWindow (windowL3 payload tail)
  | .decL4 payload tail => .decWindow (windowL4 payload tail)
  | .decL5 payload tail => .decWindow (windowL5 payload tail)
  | .decL6 payload tail => .decWindow (windowL6 payload tail)
  | .decL7 payload tail => .decWindow (windowL7 payload tail)
  | .decL8 payload tail => .decWindow (windowL8 payload tail)
  | .decL9 value => .decWindow (windowL9 value)
  | .encB0 v => .encValue v
  | .encB1 v => .encValue v
  | .encB2 v => .encValue v
  | .encB3 v => .encValue v
  | .encB4 v => .encValue v
  | .encB5 v => .encValue v
  | .encB6 v => .encValue v
  | .encB7 v => .encValue v
  | .encB8 v => .encValue v

/-! ## The words of spec/opcode_table.json -/

/-- The window a table word stands for: its `nbits` bits, every bit above them 0. -/
def tableWindow (nbits w : Nat) : Window := BitVec.ofNat 72 (w % 2 ^ nbits)

/-- The operation that the decoder reads from a word of spec/opcode_table.json, whose bits are numbered over the window
(R72), so the word's bytes are its lanes. A word wider than a window is refused. An ENC row's word is the window the
encoder PRODUCES and coincides with a DEC row's word: as an input it can only be a `dec_window`
(notes/assumptions/6). -/
def decodeTableWord (nbits w : Nat) : Option Instr :=
  if nbits ≤ 72 then
    match decodeBytes (bytesOfWindow (tableWindow nbits w)) with
    | .ok i => some i
    | .error _ => none
  else none

end Sys2Proof
end

