-- ==== Sys2Proof/Machine/Flags.lean ====
section
/-! DEFINITION. The units have no flags and no condition codes (spec/10_state.md R27): no operation computes one. What
stands beside the data on the output ports are the length and the byte enables, computed here from the length `n`. -/

namespace Sys2Proof

/-- `enc_len` and `dec_len`: `n` as 4-bit unsigned binary (R127, R158). -/
def lengthOut (n : Nat) : Length := BitVec.ofNat 4 n

/-- `enc_be`: bit `i` is 1 exactly when `i < n`, so the 9-bit value is `2^n - 1` (R125). -/
def byteEnables (n : Nat) : ByteEnables := BitVec.ofNat 9 (2 ^ n - 1)

end Sys2Proof
end

