-- ==== Sys2Proof/Config.lean ====
section
/-! DEFINITION. The two open parameters of spec/00_scope.md R6, each an opaque constant: nothing can evaluate it. -/

namespace Sys2Proof.Config

/-- `ENC_TAIL` (R6, R126, 93 U1): the tail draws. `encTail d` is the 72-bit draw of ENC operation number `d`, of which
only the lanes `[n, 9)` reach the port. The step counts the operations, so no two share a draw.
Free value, notes/assumptions/5. -/
opaque encTail : Nat → Window

/-- `T_PD` (R6, R222, R227, 93 U6): the propagation delay, in a unit of time the spec leaves open.
No functional rule uses it; only the hazard of sampling early does. Notes/assumptions/15. -/
opaque tPd : Nat

end Sys2Proof.Config
end

