-- ==== Sys2Proof/Machine/State.lean ====
section
/-! DEFINITION. The state: the port values of the two units (spec/10_state.md R21, R23, R24), what the environment
presents next, and the counter of the free tail draws. -/

namespace Sys2Proof.Machine

/-- How an input was presented (spec/70_reset_and_hazards.md R222; spec/93_implementation_defined.md U5, U7). -/
inductive Hold where
  /-- driven, and held stable from its presentation until the outputs are sampled, for at least `T_PD` -/
  | stable
  /-- changed in that interval, or sampled before `T_PD` or before the supply is stable (U5) -/
  | early
  /-- some input bit is undriven: X or Z (U7) -/
  | undriven
  deriving DecidableEq, Repr

/-- One presentation of an input by the environment (R25). -/
inductive Stimulus where
  /-- `ENC value`: drive `enc_value` and sample the encoder (R73) -/
  | encode (value : Value) (hold : Hold)
  /-- `DEC window`: drive `dec_window` and sample the decoder (R73); `overlap` says that the window's bytes come from a
  buffer that an encoder, or any other writer, is writing at the same time (R52, U2) -/
  | decode (window : Window) (hold : Hold) (overlap : Bool)
  deriving DecidableEq, Repr

/-- The spec has no fault: "No entry uses `fault` or `stuck`" (spec/93_implementation_defined.md), and neither unit
raises any exception, for any input (spec/60_exceptions.md R200). So there is no reason to name. -/
inductive Fault
  deriving DecidableEq, Repr

/-- Why a step has no meaning. -/
inductive Refusal where
  /-- raised by an arm of `exec` that has no meaning yet; safe -/
  | notModelled (mnemonic : String)
  /-- raised by a step whose stimulus was not held stable for `T_PD`: the sampled outputs are unspecified and the run is
  refused (R222, U5); safe -/
  | inputNotStable
  /-- raised by a step whose stimulus leaves an input bit undriven (D20, U7); safe -/
  | inputUndriven
  /-- raised by a step that decodes a buffer while it is being written: the result is undefined and the run is refused
  (R52, R202, U2); safe -/
  | bufferRace
  deriving DecidableEq, Repr

/-- What ENC drives (R23, R120). -/
structure EncOut where
  window : Window
  len : Length
  be : ByteEnables
  deriving DecidableEq, Repr

/-- What DEC drives (R24, R150). -/
structure DecOut where
  value : Value
  len : Length
  deriving DecidableEq, Repr

structure State where
  /-- port `enc_value` (R23) -/
  encValue : Value
  /-- port `enc_window` (R23) -/
  encWindow : Window
  /-- port `enc_len` (R23) -/
  encLen : Length
  /-- port `enc_be` (R23) -/
  encBe : ByteEnables
  /-- port `dec_window` (R24) -/
  decWindow : Window
  /-- port `dec_value` (R24) -/
  decValue : Value
  /-- port `dec_len` (R24) -/
  decLen : Length
  /-- the model's own: how many tail draws have been used (R126; notes/assumptions/5) -/
  draws : Nat
  /-- the model's own: what the environment presents next, first one first (R22, R25; notes/assumptions/2) -/
  schedule : List Stimulus
  deriving DecidableEq, Repr

/-- There is no reset input and no state to initialise (R32, R220). This is the machine with 0 on both inputs, a choice of
the model (DESIGN CHOICE, notes/assumptions/3), once they have been stable for `T_PD`: each output is the function of its
input (R32; notes/assumptions/4), so ENC of 0 is `[0x01]` with length 1 and a free tail (draw 0), and DEC of the zero
window is `(0, 9)`. -/
def State.reset : State where
  encValue := 0#64
  encWindow := (Config.encTail 0).extractLsb' 8 64 ++ 0x01#8
  encLen := 1#4
  encBe := 0b000000001#9
  decWindow := 0#72
  decValue := 0#64
  decLen := 9#4
  draws := 1
  schedule := []

end Sys2Proof.Machine
end

