-- ==== Sys2Proof/Machine/Ops.lean ====
section
/-! DEFINITION. The named operations of the two units: the stages of ENC (spec/41_encoder.md R121 to R127) and of DEC
(spec/42_decoder.md R151 to R158), each unit as one function (R120, R150), and driving a unit's ports.

There is no operation for taking an exception or returning from one: neither unit raises any (spec/60_exceptions.md
R200, R205, R206, R214). -/

namespace Sys2Proof.Machine

/-! ## The encoder's stages -/

/-- Bias subtract (R122). -/
def biasSubtract (v bias : Value) : Value := v - bias

/-- Pack with length marker (R123): `P = (biased << n) OR 2^(n-1)`. -/
def packMarker (biased : Value) (n : Nat) : Value := (biased <<< n) ||| (1#64 <<< (n - 1))

/-- What ENC drives for a band that ends in a form `Ln`, `n` in `[1, 8]` (R120, R122, R123, R125 to R127): the lanes
`[n, 9)` are those of the draw `tail`. -/
def encShort (bias : Value) (n : Nat) (v : Value) (tail : Window) : EncOut where
  window := memWrite tail 0 n (packMarker (biasSubtract v bias) n)
  len := lengthOut n
  be := byteEnables n

/-- What ENC drives for band B8 (R120, R124, R125, R127): the raw value after a zero lane. -/
def encLong (v : Value) (tail : Window) : EncOut where
  window := memWrite (memWrite tail 0 1 0#64) 1 8 v
  len := lengthOut 9
  be := byteEnables 9

/-- The length ENC reports for a band: `n = k + 1` below B8, 9 for B8 (R120). -/
def bandLength (k : Nat) : Nat := if k < 8 then k + 1 else 9

/-- ENC as one function of the input and the draw (R120). -/
def encUnit (v : Value) (tail : Window) : EncOut where
  window := if band v < 8 then (encShort (offsetWord (band v)) (band v + 1) v tail).window else (encLong v tail).window
  len := lengthOut (bandLength (band v))
  be := byteEnables (bandLength (band v))

/-! ## The decoder's stages -/

/-- How many zero bits of `x` there are from bit `i` upward before the first 1, looking at `fuel` bits. -/
def zerosFrom (x : Value) (i : Nat) : Nat → Nat
  | 0 => 0
  | fuel + 1 => if x.getLsbD i then 0 else zerosFrom x (i + 1) fuel + 1

/-- `ctz64` (R11, R152): the consecutive zero bits of `x` counted from bit 0 upward, 64 when `x = 0`. -/
def ctz64 (x : Value) : Nat := zerosFrom x 0 64

/-- Unpack (R154): `((low << l) mod 2^64) >> r`. -/
def unpack (low : Value) (l r : Nat) : Value := (low <<< l) >>> r

/-- Unbias (R156). -/
def unbias (u bias : Value) : Value := u + bias

/-- What DEC drives for a form `Ln`, `n` in `[1, 8]`, with the shift pair `(l, r)` and the offset `bias` (R150, R154,
R156, R158). -/
def decShort (l r : Nat) (bias : Value) (n : Nat) (w : Window) : DecOut where
  value := unbias (unpack (memRead64 w 0) l r) bias
  len := lengthOut n

/-- What DEC drives for form L9 (R157, R158). -/
def decLong (w : Window) : DecOut where
  value := memRead64 w 1
  len := lengthOut 9

/-- Band dispatch (R153): the length of the form that the leading-zero count `z` selects. -/
def dispatch (z : Nat) : Nat := if z ≤ 7 then z + 1 else 9

/-- The count of the leading-zero detector (R151, R152). -/
def leadingZeros (w : Window) : Nat := ctz64 (memRead64 w 0)

/-- DEC as one function of the input (R150). -/
def decUnit (w : Window) : DecOut where
  value :=
    if leadingZeros w ≤ 7 then
      (decShort (left (leadingZeros w + 1)) (right (leadingZeros w + 1)) (offsetWord (leadingZeros w))
        (leadingZeros w + 1) w).value
    else (decLong w).value
  len := lengthOut (dispatch (leadingZeros w))

/-! ## Driving the ports -/

/-- The encoder's ports carry the input `v` and the outputs `o`; one draw has been used. -/
def State.driveEnc (s : State) (v : Value) (o : EncOut) : State :=
  { s with encValue := v, encWindow := o.window, encLen := o.len, encBe := o.be, draws := s.draws + 1 }

/-- The decoder's ports carry the input `w` and the outputs `o`. -/
def State.driveDec (s : State) (w : Window) (o : DecOut) : State :=
  { s with decWindow := w, decValue := o.value, decLen := o.len }

/-- The free draw of the ENC operation that is performed in state `s` (R126). -/
def State.tailDraw (s : State) : Window := Config.encTail s.draws

/-- ENC of a value of one of the bands B0 to B7. -/
def opEncShort (bias : Value) (n : Nat) (v : Value) (s : State) : Host.Outcome State Fault Refusal :=
  .next (s.driveEnc v (encShort bias n v s.tailDraw))

/-- ENC of a value of band B8. -/
def opEncLong (v : Value) (s : State) : Host.Outcome State Fault Refusal :=
  .next (s.driveEnc v (encLong v s.tailDraw))

/-- DEC of a window in one of the forms L1 to L8. -/
def opDecShort (l r : Nat) (bias : Value) (n : Nat) (w : Window) (s : State) : Host.Outcome State Fault Refusal :=
  .next (s.driveDec w (decShort l r bias n w))

/-- DEC of a window in form L9. -/
def opDecLong (w : Window) (s : State) : Host.Outcome State Fault Refusal :=
  .next (s.driveDec w (decLong w))

end Sys2Proof.Machine
end

