-- ==== Sys2Proof/Machine/Decoder.lean ====
section
/-! DEFINITION. The nine cases of DEC, one for each form (spec/42_decoder.md R159 to R167), with the shift amounts and the
offset each rule writes out: `opDecShort Left[n] Right[n] Offset[n-1] n`. -/

namespace Sys2Proof.Machine

/-- DEC.L1 (R159). -/
def execDecL1 (payload : BitVec 7) (tail : BitVec 64) (s : State) : Host.Outcome State Fault Refusal :=
  opDecShort 56 57 0#64 1 (windowL1 payload tail) s

/-- DEC.L2 (R160). -/
def execDecL2 (payload : BitVec 14) (tail : BitVec 56) (s : State) : Host.Outcome State Fault Refusal :=
  opDecShort 48 50 128#64 2 (windowL2 payload tail) s

/-- DEC.L3 (R161). -/
def execDecL3 (payload : BitVec 21) (tail : BitVec 48) (s : State) : Host.Outcome State Fault Refusal :=
  opDecShort 40 43 16512#64 3 (windowL3 payload tail) s

/-- DEC.L4 (R162). -/
def execDecL4 (payload : BitVec 28) (tail : BitVec 40) (s : State) : Host.Outcome State Fault Refusal :=
  opDecShort 32 36 2113664#64 4 (windowL4 payload tail) s

/-- DEC.L5 (R163). -/
def execDecL5 (payload : BitVec 35) (tail : BitVec 32) (s : State) : Host.Outcome State Fault Refusal :=
  opDecShort 24 29 270549120#64 5 (windowL5 payload tail) s

/-- DEC.L6 (R164). -/
def execDecL6 (payload : BitVec 42) (tail : BitVec 24) (s : State) : Host.Outcome State Fault Refusal :=
  opDecShort 16 22 34630287488#64 6 (windowL6 payload tail) s

/-- DEC.L7 (R165). -/
def execDecL7 (payload : BitVec 49) (tail : BitVec 16) (s : State) : Host.Outcome State Fault Refusal :=
  opDecShort 8 15 4432676798592#64 7 (windowL7 payload tail) s

/-- DEC.L8 (R166). -/
def execDecL8 (payload : BitVec 56) (tail : BitVec 8) (s : State) : Host.Outcome State Fault Refusal :=
  opDecShort 0 8 567382630219904#64 8 (windowL8 payload tail) s

/-- DEC.L9 (R167). -/
def execDecL9 (value : Value) (s : State) : Host.Outcome State Fault Refusal :=
  opDecLong (windowL9 value) s

end Sys2Proof.Machine
end

