-- ==== Sys2Proof/Machine/Encoder.lean ====
section
/-! DEFINITION. The nine cases of ENC, one for each band (spec/41_encoder.md R128 to R136), with the numbers each rule
writes out. The ranges are the operands' well-formedness. -/

namespace Sys2Proof.Machine

/-- ENC.B0 (R128): `enc_value` in `[0, 127]`, form L1. -/
def execEncB0 (v : Value) (s : State) : Host.Outcome State Fault Refusal := opEncShort 0#64 1 v s

/-- ENC.B1 (R129): `enc_value` in `[128, 16511]`, form L2. -/
def execEncB1 (v : Value) (s : State) : Host.Outcome State Fault Refusal := opEncShort 128#64 2 v s

/-- ENC.B2 (R130): `enc_value` in `[16512, 2113663]`, form L3. -/
def execEncB2 (v : Value) (s : State) : Host.Outcome State Fault Refusal := opEncShort 16512#64 3 v s

/-- ENC.B3 (R131): `enc_value` in `[2113664, 270549119]`, form L4. -/
def execEncB3 (v : Value) (s : State) : Host.Outcome State Fault Refusal := opEncShort 2113664#64 4 v s

/-- ENC.B4 (R132): `enc_value` in `[270549120, 34630287487]`, form L5. -/
def execEncB4 (v : Value) (s : State) : Host.Outcome State Fault Refusal := opEncShort 270549120#64 5 v s

/-- ENC.B5 (R133): `enc_value` in `[34630287488, 4432676798591]`, form L6. -/
def execEncB5 (v : Value) (s : State) : Host.Outcome State Fault Refusal := opEncShort 34630287488#64 6 v s

/-- ENC.B6 (R134): `enc_value` in `[4432676798592, 567382630219903]`, form L7. -/
def execEncB6 (v : Value) (s : State) : Host.Outcome State Fault Refusal := opEncShort 4432676798592#64 7 v s

/-- ENC.B7 (R135): `enc_value` in `[567382630219904, 72624976668147839]`, form L8. -/
def execEncB7 (v : Value) (s : State) : Host.Outcome State Fault Refusal := opEncShort 567382630219904#64 8 v s

/-- ENC.B8 (R136): `enc_value` in `[72624976668147840, 2^64-1]`, form L9. -/
def execEncB8 (v : Value) (s : State) : Host.Outcome State Fault Refusal := opEncLong v s

end Sys2Proof.Machine
end

