-- ==== Sys2Proof/Machine/Dispatch.lean ====
section
/-! DEFINITION. One arm for each case of the two operations. -/

namespace Sys2Proof.Machine

def exec (i : Instr) (s : State) : Host.Outcome State Fault Refusal :=
  match i with
  | .decL1 payload tail => Sys2Proof.Machine.execDecL1 payload tail s
  | .decL2 payload tail => Sys2Proof.Machine.execDecL2 payload tail s
  | .decL3 payload tail => Sys2Proof.Machine.execDecL3 payload tail s
  | .decL4 payload tail => Sys2Proof.Machine.execDecL4 payload tail s
  | .decL5 payload tail => Sys2Proof.Machine.execDecL5 payload tail s
  | .decL6 payload tail => Sys2Proof.Machine.execDecL6 payload tail s
  | .decL7 payload tail => Sys2Proof.Machine.execDecL7 payload tail s
  | .decL8 payload tail => Sys2Proof.Machine.execDecL8 payload tail s
  | .decL9 value => Sys2Proof.Machine.execDecL9 value s
  | .encB0 value => Sys2Proof.Machine.execEncB0 value s
  | .encB1 value => Sys2Proof.Machine.execEncB1 value s
  | .encB2 value => Sys2Proof.Machine.execEncB2 value s
  | .encB3 value => Sys2Proof.Machine.execEncB3 value s
  | .encB4 value => Sys2Proof.Machine.execEncB4 value s
  | .encB5 value => Sys2Proof.Machine.execEncB5 value s
  | .encB6 value => Sys2Proof.Machine.execEncB6 value s
  | .encB7 value => Sys2Proof.Machine.execEncB7 value s
  | .encB8 value => Sys2Proof.Machine.execEncB8 value s

end Sys2Proof.Machine
end

