-- ==== Sys2Proof/Machine/Fetch.lean ====
section
/-! DEFINITION. From what the environment presents to an operation (spec/10_state.md R22, R25): the next stimulus, its
hazards, the word it puts on an input port. -/

namespace Sys2Proof.Machine

/-- The input port a stimulus drives, and with what. -/
def Stimulus.port : Stimulus → PortWord
  | .encode v _ => .encValue v
  | .decode w _ _ => .decWindow w

/-- The hazard of an input that was not held stable (R222, U5, U7). -/
def Hold.hazard : Hold → Option Refusal
  | .stable => none
  | .early => some .inputNotStable
  | .undriven => some .inputUndriven

/-- Why the run with this stimulus is refused, if it is (R52, R222; U2, U5, U7). -/
def Stimulus.hazard : Stimulus → Option Refusal
  | .encode _ hold => hold.hazard
  | .decode _ hold overlap => if overlap then some .bufferRace else hold.hazard

/-- The next stimulus, and the state without it. -/
def fetch (s : State) : Option (Stimulus × State) :=
  match s.schedule with
  | [] => none
  | x :: rest => some (x, { s with schedule := rest })

/-- The operation a stimulus has its unit perform, on a stable input; a run that breaks R52 or R222 is refused. -/
def present (x : Stimulus) (s : State) : Host.Outcome State Fault Refusal :=
  match x.hazard with
  | some r => .refused r
  | none => exec (decode x.port) s

/-- One step: the operation of the next stimulus. With nothing presented, the inputs stay unchanged and the outputs hold
(R25; notes/assumptions/9). -/
def advance (s : State) : Host.Outcome State Fault Refusal :=
  match fetch s with
  | none => .next s
  | some (x, rest) => present x rest

/-- The window of a table word presented to the decoder, stable and with no writer, before everything else. -/
def State.presentWord (s : State) (nbits w : Nat) : State :=
  { s with schedule := .decode (tableWindow nbits w) .stable false :: s.schedule }

end Sys2Proof.Machine
end

