-- ==== Sys2Proof/Machine/Datapath.lean ====
section
/-! DEFINITION. The reference datapaths of the two units, which the spec gives as informative (spec/41_encoder.md R141,
spec/42_decoder.md R173): circuits built of comparators, multiplexers, shifters and an adder. The machine does not run
them; they are here to be stated equal to the functions it does run (R120, R150). -/

namespace Sys2Proof.Machine

/-! ## Encoder (R141) -/

/-- Comparator `t[j] = (enc_value >= Offset[j])`, unsigned. -/
def comparator (v : Value) (j : Nat) : Bool := decide (offsetWord j ≤ v)

/-- The count of ones of the thermometer code `t[1]` to `t[8]`. -/
def thermometerCount (v : Value) : Nat := ((List.range' 1 8).filter (comparator v)).length

/-- The packed integer of the bias subtractor, the shifter and the marker's OR, for the band index `k` in `[0, 7]`. -/
def packStage (v : Value) (k : Nat) : Value := ((v - offsetWord k) <<< (k + 1)) ||| (1#64 <<< k)

/-- `enc_be`: bit 0 is 1 and bit `i` is `t[i]`. -/
def enableStage (v : Value) : ByteEnables :=
  BitVec.ofBool (comparator v 8) ++ BitVec.ofBool (comparator v 7) ++ BitVec.ofBool (comparator v 6) ++
    BitVec.ofBool (comparator v 5) ++ BitVec.ofBool (comparator v 4) ++ BitVec.ofBool (comparator v 3) ++
    BitVec.ofBool (comparator v 2) ++ BitVec.ofBool (comparator v 1) ++ 1#1

/-- The encoder as the reference datapath: lanes `[0, 8)` from `P` or from `{enc_value[55:0], 0x00}`, lane 8 from
`enc_value[63:56]` or the tail. -/
def encDatapath (v : Value) (tail8 : Byte) : EncOut where
  window :=
    (if comparator v 8 then v.extractLsb' 56 8 else tail8) ++
      (if comparator v 8 then v.extractLsb' 0 56 ++ 0x00#8 else packStage v (thermometerCount v))
  len := BitVec.ofNat 4 (thermometerCount v + 1)
  be := enableStage v

/-! ## Decoder (R173) -/

/-- The 8-bit priority encoder on lane 0: the index of the lowest set bit. Its output is not used when there is none. -/
def priorityEncoder (b : Byte) : Nat := ((List.range 8).find? b.getLsbD).getD 0

/-- The payload field selection `low[8n-1:n]`, zero-extended. -/
def selectField (low : Value) (n : Nat) : Value := (low.extractLsb' n (7 * n)).setWidth 64

/-- The decoder as the reference datapath. -/
def decDatapath (w : Window) : DecOut where
  value :=
    if lane w 0 = 0x00#8 then w.extractLsb' 8 64
    else selectField (w.extractLsb' 0 64) (priorityEncoder (lane w 0) + 1) + offsetWord (priorityEncoder (lane w 0))
  len := if lane w 0 = 0x00#8 then 9#4 else BitVec.ofNat 4 (priorityEncoder (lane w 0) + 1)

end Sys2Proof.Machine
end

