-- ==== Sys2Proof/Machine/HostBuffer.lean ====
section
/-! DEFINITION. What the host does with windows, outside the units (spec/00_scope.md R5 (f), (g)): writing an encoding into
its buffer, framing a window from a stream, and holding an input for some time. These build what the environment
presents; no operation of a unit uses them (notes/assumptions/16). -/

namespace Sys2Proof.Machine

/-- Lane `i` of the host's 9-byte buffer after writing through the byte enables: the new lane where `be[i] = 1`, the old
one where it is 0, for the lanes below `k` (R125, R224). -/
def mergeLanes (be : ByteEnables) (new old : Window) : Nat → Window
  | 0 => old
  | k + 1 => if be.getLsbD k then setLane (mergeLanes be new old k) k (lane new k) else mergeLanes be new old k

/-- A 9-byte buffer `old` written through the byte enables (R125). -/
def writeThrough (be : ByteEnables) (new old : Window) : Window := mergeLanes be new old 9

/-- The window a host drives from the first bytes of a stream: lane `i` is byte `i` where there is one, and the lane of
`pad` past the end (R201, R225), for the lanes from `i` on. -/
def frameFrom (pad : Window) (i : Nat) : List Byte → Window
  | [] => pad
  | b :: rest => setLane (frameFrom pad (i + 1) rest) i b

/-- The window a host drives from a stream, lane 0 first; bytes past lane 8 do not fit. -/
def frameWindow (pad : Window) (bytes : List Byte) : Window := frameFrom pad 0 (bytes.take 9)

/-- How an input that was driven and held unchanged for the time `elapsed` before sampling was presented: an operation
needs at least `T_PD` (R222). -/
def holdFor (elapsed : Nat) : Hold := if Config.tPd ≤ elapsed then .stable else .early

end Sys2Proof.Machine
end

