-- ==== Sys2Proof/Safety.lean ====
section
/-! DEFINITION. What counts as a safe state and a safe run, in the terms the statements use. -/

namespace Sys2Proof.Machine

/-- The encoder's outputs are the function of its present input, for some draw of the tail (spec/10_state.md R20, R32). -/
def State.EncCoherent (s : State) : Prop :=
  ∃ tail, encUnit s.encValue tail = ⟨s.encWindow, s.encLen, s.encBe⟩

/-- The decoder's outputs are the function of its present input (R20, R32). -/
def State.DecCoherent (s : State) : Prop := decUnit s.decWindow = ⟨s.decValue, s.decLen⟩

/-- Both units are combinational: their outputs hold the result of their present inputs (R25). -/
structure State.Combinational (s : State) : Prop where
  enc : s.EncCoherent
  dec : s.DecCoherent

/-- What the host must see to it: the input is driven and held stable (R222), and no buffer is decoded while it is being
written (R52, R223). -/
def Stimulus.proper (x : Stimulus) : Prop := x.hazard = none

/-- Every input the environment is going to present is proper. -/
def State.ProperSchedule (s : State) : Prop := ∀ x ∈ s.schedule, x.proper

end Sys2Proof.Machine
end

