-- ==== Sys2Proof/Certificates/Slice0/Obligations.lean ====
section
/-! DEFINITION. The statements for the provers, each about what a numbered rule of spec/ says the units do.

`Sys2Proof.Claims` names what several statements share. A statement about the tail lanes of `enc_window` names the draw
`Config.encTail s.draws`, an opaque constant: it holds whatever the draw is (spec/41_encoder.md R126). -/

namespace Sys2Proof.Claims

open Sys2Proof.Machine

/-! ## Frames -/

/-- What an ENC operation does to the rest of the state: `v` is on `enc_value`, one draw is used, and the decoder's ports
and the environment's schedule stay. The units have no other state (R20 to R31). -/
structure EncFrame (s t : State) (v : Value) : Prop where
  encValue : t.encValue = v
  draws : t.draws = s.draws + 1
  decWindow : t.decWindow = s.decWindow
  decValue : t.decValue = s.decValue
  decLen : t.decLen = s.decLen
  schedule : t.schedule = s.schedule

/-- What a DEC operation does to the rest of the state: `w` is on `dec_window`, and the encoder's ports, the draws and the
schedule stay. -/
structure DecFrame (s t : State) (w : Window) : Prop where
  decWindow : t.decWindow = w
  encValue : t.encValue = s.encValue
  encWindow : t.encWindow = s.encWindow
  encLen : t.encLen = s.encLen
  encBe : t.encBe = s.encBe
  draws : t.draws = s.draws
  schedule : t.schedule = s.schedule

/-! ## One operation -/

/-- ENC row `i` completes: lanes `[0, n)` of `enc_window` are `bytesLE(P, n)` with `P = (v - lo) * 2^n + 2^(n-1)`, lanes
`[n, 9)` are the draw, `enc_len = n`, `enc_be = 2^n - 1`, and the frame holds. -/
def EncodesShort (i : Instr) (v : Value) (lo n : Nat) (s : State) : Prop :=
  ∃ t, exec i s = .next t ∧ le t.encWindow 0 n = (v.toNat - lo) * 2 ^ n + 2 ^ (n - 1) ∧
    (∀ j, n ≤ j → j < 9 → lane t.encWindow j = lane (Config.encTail s.draws) j) ∧
    t.encLen.toNat = n ∧ t.encBe.toNat = 2 ^ n - 1 ∧ EncFrame s t v

/-- ENC row `i` completes: lane 0 of `enc_window` is 0x00, lanes `[1, 9)` are `bytesLE(v, 8)`, `enc_len = 9`, all byte
enables are 1, and the frame holds. -/
def EncodesLong (i : Instr) (v : Value) (s : State) : Prop :=
  ∃ t, exec i s = .next t ∧ lane t.encWindow 0 = 0x00 ∧ le t.encWindow 1 8 = v.toNat ∧
    t.encLen.toNat = 9 ∧ t.encBe.toNat = 2 ^ 9 - 1 ∧ EncFrame s t v

/-- `ENC v -> bytes, n` in the notation of R73, for the row `i`, in every state. -/
def GivesLanes (i : Instr) (bytes : List Byte) : Prop :=
  ∀ s, ∃ t, exec i s = .next t ∧ (List.range bytes.length).map (lane t.encWindow) = bytes ∧
    t.encLen.toNat = bytes.length

/-- DEC row `i` on the window `w` with payload `p` completes: `z = n - 1`; `u = ((low << l) mod 2^64) >> r` is
`low[8n-1:n]`, the payload; `dec_value = u + lo`, in `[lo, hi]`; `dec_len = n`; and the frame holds. -/
def DecodesShort (i : Instr) (w : Window) (p l r n lo hi : Nat) (s : State) : Prop :=
  ctz64 (memRead64 w 0) = n - 1 ∧ (unpack (memRead64 w 0) l r).toNat = p ∧
    p = (memRead64 w 0).toNat / 2 ^ n % 2 ^ (7 * n) ∧
    ∃ t, exec i s = .next t ∧ t.decValue.toNat = p + lo ∧ lo ≤ t.decValue.toNat ∧ t.decValue.toNat ≤ hi ∧
      t.decLen.toNat = n ∧ DecFrame s t w

/-- DEC row `i` on the window `w` completes: `z >= 8`, `dec_value` is the raw value of lanes `[1, 9)`, `dec_len = 9`, and
the frame holds. -/
def DecodesLong (i : Instr) (w : Window) (s : State) : Prop :=
  8 ≤ ctz64 (memRead64 w 0) ∧
    ∃ t, exec i s = .next t ∧ t.decValue.toNat = le w 1 8 ∧ t.decLen.toNat = 9 ∧ DecFrame s t w

/-- `DEC w -> (value, n)` in the notation of R73, in every state. -/
def DecodesTo (w : Window) (value n : Nat) : Prop :=
  ∀ s, ∃ t, exec (decode (.decWindow w)) s = .next t ∧ t.decValue.toNat = value ∧ t.decLen.toNat = n

/-- `DEC [bytes, ...] -> (value, n)`, whatever the lanes after the bytes hold. -/
def StartDecodesTo (bytes : List Byte) (value n : Nat) : Prop :=
  ∀ w, (∀ j, j < bytes.length → lane w j = bytes.getD j 0) → DecodesTo w value n

/-! ## Forms (R66) -/

/-- `mask_n` of R66. -/
def formMask (n : Nat) : Byte := if n ≤ 8 then BitVec.ofNat 8 (2 ^ n - 1) else 0xFF

/-- `match_n` of R66. -/
def formMatch (n : Nat) : Byte := if n ≤ 8 then BitVec.ofNat 8 (2 ^ (n - 1)) else 0x00

/-- `w` is in form `Ln` (R66). -/
def InForm (w : Window) (n : Nat) : Prop := lane w 0 &&& formMask n = formMatch n

/-- The form of a DEC row; `none` for an ENC row. -/
def formOf : Instr → Option Nat
  | .decL1 _ _ => some 1
  | .decL2 _ _ => some 2
  | .decL3 _ _ => some 3
  | .decL4 _ _ => some 4
  | .decL5 _ _ => some 5
  | .decL6 _ _ => some 6
  | .decL7 _ _ => some 7
  | .decL8 _ _ => some 8
  | .decL9 _ => some 9
  | .encB0 _ | .encB1 _ | .encB2 _ | .encB3 _ | .encB4 _ | .encB5 _ | .encB6 _ | .encB7 _ | .encB8 _ => none

/-- The band of an ENC row; `none` for a DEC row. -/
def bandOf : Instr → Option Nat
  | .encB0 _ => some 0
  | .encB1 _ => some 1
  | .encB2 _ => some 2
  | .encB3 _ => some 3
  | .encB4 _ => some 4
  | .encB5 _ => some 5
  | .encB6 _ => some 6
  | .encB7 _ => some 7
  | .encB8 _ => some 8
  | .decL1 _ _ | .decL2 _ _ | .decL3 _ _ | .decL4 _ _ | .decL5 _ _ | .decL6 _ _ | .decL7 _ _ | .decL8 _ _
  | .decL9 _ => none

end Sys2Proof.Claims

open Sys2Proof Sys2Proof.Machine Sys2Proof.Claims

/-! ## The eighteen cases (R128 to R136, R159 to R167) -/

/-- R128: ENC.B0, the band's range, its result and frame, and the rule's corner cases and example. -/
def Obligations.EncB0PacksOneByte : Prop :=
  (∀ v : Value, v.toNat ≤ 127 →
    decode (.encValue v) = .encB0 v ∧ ∀ s, EncodesShort (.encB0 v) v 0 1 s) ∧
  GivesLanes (.encB0 0) [0x01] ∧
  GivesLanes (.encB0 127) [0xFF] ∧
  GivesLanes (.encB0 5) [0x0B] ∧
  (∀ (v : Value) s, v.toNat ≤ 127 → ∃ t, exec (.encB0 v) s = .next t ∧
    (lane t.encWindow 0).getLsbD 0 = true ∧ (lane t.encWindow 0 = 0xFF ↔ v.toNat = 127))

/-- R129: ENC.B1, the band's range, its result and frame, and the rule's corner cases and example. -/
def Obligations.EncB1PacksTwoBytes : Prop :=
  (∀ v : Value, 128 ≤ v.toNat → v.toNat ≤ 16511 →
    decode (.encValue v) = .encB1 v ∧ ∀ s, EncodesShort (.encB1 v) v 128 2 s) ∧
  GivesLanes (.encB1 128) [0x02, 0x00] ∧
  GivesLanes (.encB1 16511) [0xFE, 0xFF] ∧
  GivesLanes (.encB1 16384) [0x02, 0xFE] ∧
  GivesLanes (.encB1 300) [0xB2, 0x02]

/-- R130: ENC.B2, the band's range, its result and frame, and the rule's corner cases and example. -/
def Obligations.EncB2PacksThreeBytes : Prop :=
  (∀ v : Value, 16512 ≤ v.toNat → v.toNat ≤ 2113663 →
    decode (.encValue v) = .encB2 v ∧ ∀ s, EncodesShort (.encB2 v) v 16512 3 s) ∧
  GivesLanes (.encB2 16512) [0x04, 0x00, 0x00] ∧
  GivesLanes (.encB2 2113663) [0xFC, 0xFF, 0xFF] ∧
  GivesLanes (.encB2 1000000) [0x04, 0x0E, 0x78]

/-- R131: ENC.B3, the band's range, its result and frame, and the rule's corner cases and example. -/
def Obligations.EncB3PacksFourBytes : Prop :=
  (∀ v : Value, 2113664 ≤ v.toNat → v.toNat ≤ 270549119 →
    decode (.encValue v) = .encB3 v ∧ ∀ s, EncodesShort (.encB3 v) v 2113664 4 s) ∧
  GivesLanes (.encB3 2113664) [0x08, 0x00, 0x00, 0x00] ∧
  GivesLanes (.encB3 270549119) [0xF8, 0xFF, 0xFF, 0xFF] ∧
  GivesLanes (.encB3 123456789) [0x58, 0xC9, 0xB8, 0x73]

/-- R132: ENC.B4, the band's range, its result and frame, and the rule's corner cases and example. -/
def Obligations.EncB4PacksFiveBytes : Prop :=
  (∀ v : Value, 270549120 ≤ v.toNat → v.toNat ≤ 34630287487 →
    decode (.encValue v) = .encB4 v ∧ ∀ s, EncodesShort (.encB4 v) v 270549120 5 s) ∧
  GivesLanes (.encB4 270549120) [0x10, 0x00, 0x00, 0x00, 0x00] ∧
  GivesLanes (.encB4 34630287487) [0xF0, 0xFF, 0xFF, 0xFF, 0xFF] ∧
  GivesLanes (.encB4 4294967296) [0x10, 0xF0, 0xF7, 0xFB, 0x1D] ∧
  GivesLanes (.encB4 10000000000) [0x10, 0x70, 0x74, 0x7D, 0x48]

/-- R133: ENC.B5, the band's range, its result and frame, and the rule's corner cases and example. -/
def Obligations.EncB5PacksSixBytes : Prop :=
  (∀ v : Value, 34630287488 ≤ v.toNat → v.toNat ≤ 4432676798591 →
    decode (.encValue v) = .encB5 v ∧ ∀ s, EncodesShort (.encB5 v) v 34630287488 6 s) ∧
  GivesLanes (.encB5 34630287488) [0x20, 0x00, 0x00, 0x00, 0x00, 0x00] ∧
  GivesLanes (.encB5 4432676798591) [0xE0, 0xFF, 0xFF, 0xFF, 0xFF, 0xFF] ∧
  GivesLanes (.encB5 1000000000000) [0x20, 0xE0, 0x33, 0x21, 0x31, 0x38]

/-- R134: ENC.B6, the band's range, its result and frame, and the rule's corner cases and example. -/
def Obligations.EncB6PacksSevenBytes : Prop :=
  (∀ v : Value, 4432676798592 ≤ v.toNat → v.toNat ≤ 567382630219903 →
    decode (.encValue v) = .encB6 v ∧ ∀ s, EncodesShort (.encB6 v) v 4432676798592 7 s) ∧
  GivesLanes (.encB6 4432676798592) [0x40, 0x00, 0x00, 0x00, 0x00, 0x00, 0x00] ∧
  GivesLanes (.encB6 567382630219903) [0xC0, 0xFF, 0xFF, 0xFF, 0xFF, 0xFF, 0xFF] ∧
  GivesLanes (.encB6 100000000000000) [0x40, 0xC0, 0xFF, 0x2C, 0x80, 0x75, 0x2B]

/-- R135: ENC.B7, the band's range, its result and frame, and the rule's corner cases and example. -/
def Obligations.EncB7PacksEightBytes : Prop :=
  (∀ v : Value, 567382630219904 ≤ v.toNat → v.toNat ≤ 72624976668147839 →
    decode (.encValue v) = .encB7 v ∧ ∀ s, EncodesShort (.encB7 v) v 567382630219904 8 s) ∧
  GivesLanes (.encB7 567382630219904) [0x80, 0x00, 0x00, 0x00, 0x00, 0x00, 0x00, 0x00] ∧
  GivesLanes (.encB7 72624976668147839) [0x80, 0xFF, 0xFF, 0xFF, 0xFF, 0xFF, 0xFF, 0xFF] ∧
  GivesLanes (.encB7 72057594037927936) [0x80, 0x80, 0xBF, 0xDF, 0xEF, 0xF7, 0xFB, 0xFD] ∧
  (∀ (v : Value) s, 567382630219904 ≤ v.toNat → v.toNat ≤ 72624976668147839 → ∃ t, exec (.encB7 v) s = .next t ∧
    lane t.encWindow 0 = 0x80 ∧ (2 ^ 55 ≤ v.toNat - 567382630219904 → (lane t.encWindow 7).getLsbD 7 = true))

/-- R124, R136: ENC.B8, the band's range, its result and frame, and the rule's corner cases and example. -/
def Obligations.EncB8StoresRawValue : Prop :=
  (∀ v : Value, 72624976668147840 ≤ v.toNat →
    decode (.encValue v) = .encB8 v ∧ ∀ s, EncodesLong (.encB8 v) v s) ∧
  GivesLanes (.encB8 18446744073709551615) [0x00, 0xFF, 0xFF, 0xFF, 0xFF, 0xFF, 0xFF, 0xFF, 0xFF] ∧
  GivesLanes (.encB8 9223372036854775808) [0x00, 0x00, 0x00, 0x00, 0x00, 0x00, 0x00, 0x00, 0x80] ∧
  GivesLanes (.encB8 72624976668147840) [0x00, 0x80, 0x40, 0x20, 0x10, 0x08, 0x04, 0x02, 0x01]

/-- R159: DEC.L1, which windows select it, its result and frame, and the rule's corner cases and example. -/
def Obligations.DecL1UnpacksOneByte : Prop :=
  (∀ w : Window, lane w 0 &&& 0x01 = 0x01 ↔ ∃ payload tail, decode (.decWindow w) = .decL1 payload tail) ∧
  (∀ payload tail s, DecodesShort (.decL1 payload tail) (windowL1 payload tail) payload.toNat 56 57 1 0 127 s) ∧
  StartDecodesTo [0x01] 0 1 ∧
  StartDecodesTo [0xFF] 127 1 ∧
  StartDecodesTo [0x0B, 0x00, 0x00, 0x00, 0x00, 0x00, 0x00, 0x00, 0x00] 5 1

/-- R160: DEC.L2, which windows select it, its result and frame, and the rule's corner cases and example. -/
def Obligations.DecL2UnpacksTwoBytes : Prop :=
  (∀ w : Window, lane w 0 &&& 0x03 = 0x02 ↔ ∃ payload tail, decode (.decWindow w) = .decL2 payload tail) ∧
  (∀ payload tail s, DecodesShort (.decL2 payload tail) (windowL2 payload tail) payload.toNat 48 50 2 128 16511 s) ∧
  StartDecodesTo [0x02, 0x00] 128 2 ∧
  StartDecodesTo [0xFE, 0xFF] 16511 2 ∧
  StartDecodesTo [0x06, 0x00] 129 2 ∧
  StartDecodesTo [0xB2, 0x02, 0xFF, 0xFF, 0xFF, 0xFF, 0xFF, 0xFF, 0xFF] 300 2 ∧
  ((unpack 0x0006 48 50).toNat + 128 = 129 ∧ (unpack 0x0006 48 49).toNat + 128 = 131)

/-- R161: DEC.L3, which windows select it, its result and frame, and the rule's corner cases and example. -/
def Obligations.DecL3UnpacksThreeBytes : Prop :=
  (∀ w : Window, lane w 0 &&& 0x07 = 0x04 ↔ ∃ payload tail, decode (.decWindow w) = .decL3 payload tail) ∧
  (∀ payload tail s, DecodesShort (.decL3 payload tail) (windowL3 payload tail) payload.toNat 40 43 3 16512 2113663 s) ∧
  StartDecodesTo [0x04, 0x00, 0x00] 16512 3 ∧
  StartDecodesTo [0xFC, 0xFF, 0xFF] 2113663 3 ∧
  StartDecodesTo [0x04, 0x0E, 0x78, 0x12, 0x12, 0x12, 0x12, 0x12, 0x12] 1000000 3

/-- R162: DEC.L4, which windows select it, its result and frame, and the rule's corner cases and example. -/
def Obligations.DecL4UnpacksFourBytes : Prop :=
  (∀ w : Window, lane w 0 &&& 0x0F = 0x08 ↔ ∃ payload tail, decode (.decWindow w) = .decL4 payload tail) ∧
  (∀ payload tail s, DecodesShort (.decL4 payload tail) (windowL4 payload tail) payload.toNat 32 36 4 2113664 270549119 s) ∧
  StartDecodesTo [0x08, 0x00, 0x00, 0x00] 2113664 4 ∧
  StartDecodesTo [0xF8, 0xFF, 0xFF, 0xFF] 270549119 4 ∧
  StartDecodesTo [0x58, 0xC9, 0xB8, 0x73, 0xEE, 0xEE, 0xEE, 0xEE, 0xEE] 123456789 4

/-- R163: DEC.L5, which windows select it, its result and frame, and the rule's corner cases and example. -/
def Obligations.DecL5UnpacksFiveBytes : Prop :=
  (∀ w : Window, lane w 0 &&& 0x1F = 0x10 ↔ ∃ payload tail, decode (.decWindow w) = .decL5 payload tail) ∧
  (∀ payload tail s, DecodesShort (.decL5 payload tail) (windowL5 payload tail) payload.toNat 24 29 5 270549120 34630287487 s) ∧
  StartDecodesTo [0x10, 0x00, 0x00, 0x00, 0x00] 270549120 5 ∧
  StartDecodesTo [0xF0, 0xFF, 0xFF, 0xFF, 0xFF] 34630287487 5 ∧
  StartDecodesTo [0x10, 0x70, 0x74, 0x7D, 0x48, 0x33, 0x33, 0x33, 0x33] 10000000000 5

/-- R164: DEC.L6, which windows select it, its result and frame, and the rule's corner cases and example. -/
def Obligations.DecL6UnpacksSixBytes : Prop :=
  (∀ w : Window, lane w 0 &&& 0x3F = 0x20 ↔ ∃ payload tail, decode (.decWindow w) = .decL6 payload tail) ∧
  (∀ payload tail s, DecodesShort (.decL6 payload tail) (windowL6 payload tail) payload.toNat 16 22 6 34630287488 4432676798591 s) ∧
  StartDecodesTo [0x20, 0x00, 0x00, 0x00, 0x00, 0x00] 34630287488 6 ∧
  StartDecodesTo [0xE0, 0xFF, 0xFF, 0xFF, 0xFF, 0xFF] 4432676798591 6 ∧
  StartDecodesTo [0x20, 0xE0, 0x33, 0x21, 0x31, 0x38, 0x99, 0x99, 0x99] 1000000000000 6

/-- R165: DEC.L7, which windows select it, its result and frame, and the rule's corner cases and example. -/
def Obligations.DecL7UnpacksSevenBytes : Prop :=
  (∀ w : Window, lane w 0 &&& 0x7F = 0x40 ↔ ∃ payload tail, decode (.decWindow w) = .decL7 payload tail) ∧
  (∀ payload tail s, DecodesShort (.decL7 payload tail) (windowL7 payload tail) payload.toNat 8 15 7 4432676798592 567382630219903 s) ∧
  StartDecodesTo [0x40, 0x00, 0x00, 0x00, 0x00, 0x00, 0x00] 4432676798592 7 ∧
  StartDecodesTo [0xC0, 0xFF, 0xFF, 0xFF, 0xFF, 0xFF, 0xFF] 567382630219903 7 ∧
  StartDecodesTo [0x40, 0xC0, 0xFF, 0x2C, 0x80, 0x75, 0x2B, 0x77, 0x88] 100000000000000 7

/-- R166: DEC.L8, which windows select it, its result and frame, and the rule's corner cases and example. -/
def Obligations.DecL8UnpacksEightBytes : Prop :=
  (∀ w : Window, lane w 0 &&& 0xFF = 0x80 ↔ ∃ payload tail, decode (.decWindow w) = .decL8 payload tail) ∧
  (∀ payload tail s, DecodesShort (.decL8 payload tail) (windowL8 payload tail) payload.toNat 0 8 8 567382630219904 72624976668147839 s) ∧
  StartDecodesTo [0x80, 0x00, 0x00, 0x00, 0x00, 0x00, 0x00, 0x00] 567382630219904 8 ∧
  StartDecodesTo [0x80, 0xFF, 0xFF, 0xFF, 0xFF, 0xFF, 0xFF, 0xFF] 72624976668147839 8 ∧
  StartDecodesTo [0x80, 0x80, 0xBF, 0xDF, 0xEF, 0xF7, 0xFB, 0xFD, 0x42] 72057594037927936 8

/-- R157, R167: DEC.L9, which windows select it, its result and frame, and the rule's corner cases and examples. -/
def Obligations.DecL9ReadsRawValue : Prop :=
  (∀ w : Window, lane w 0 = 0x00 ↔ ∃ value, decode (.decWindow w) = .decL9 value) ∧
  (∀ value s, DecodesLong (.decL9 value) (windowL9 value) s) ∧
  (ctz64 (memRead64 (windowOfBytes [0x00, 0x80, 0x40, 0x20, 0x10, 0x08, 0x04, 0x02, 0x01]) 0) = 15) ∧
  (∀ value, memRead64 (windowL9 value) 0 = 0 → ctz64 (memRead64 (windowL9 value) 0) = 64) ∧
  (∀ z, 8 ≤ z → z ≤ 64 → ∃ value, ctz64 (memRead64 (windowL9 value) 0) = z) ∧
  StartDecodesTo [0x00, 0x00, 0x00, 0x00, 0x00, 0x00, 0x00, 0x00, 0x80] 9223372036854775808 9 ∧
  StartDecodesTo [0x00, 0x05, 0x00, 0x00, 0x00, 0x00, 0x00, 0x00, 0x00] 5 9 ∧
  StartDecodesTo [0x00, 0x7F, 0x40, 0x20, 0x10, 0x08, 0x04, 0x02, 0x01] 72624976668147839 9 ∧
  StartDecodesTo [0x00, 0x00, 0x00, 0x00, 0x00, 0x00, 0x00, 0x00, 0x00] 0 9 ∧
  StartDecodesTo [0x00, 0xFF, 0xFF, 0xFF, 0xFF, 0xFF, 0xFF, 0xFF, 0xFF] 18446744073709551615 9

/-! ## Encoding -/

/-- No bit of an encoding is dropped: a well-formed operation is read back whole, with every operand (R60 to R63, R72). -/
def Obligations.DecodeOfEncodeIsIdentity : Prop := ∀ i : Instr, i.WellFormed → decode (encode i) = i

/-- Every word on an input port selects a well-formed operation, and that operation's word is it: no word is illegal and
no two operations share one (R69, R104). -/
def Obligations.EncodeOfDecodeIsIdentity : Prop :=
  ∀ x : PortWord, (decode x).WellFormed ∧ encode (decode x) = x

/-- R66: exactly one form matches every window, it is the row the decoder selects, and the lowest set bit `b` of lane 0
names it. -/
def Obligations.FormsPartitionTheWindows : Prop :=
  ∀ w : Window, (∃! n, (1 ≤ n ∧ n ≤ 9) ∧ InForm w n) ∧
    (∀ n, 1 ≤ n → n ≤ 9 → (InForm w n ↔ formOf (decode (.decWindow w)) = some n)) ∧
    (lane w 0 = 0 → InForm w 9) ∧
    (∀ b, b < 8 → (lane w 0).getLsbD b = true → (∀ j, j < b → (lane w 0).getLsbD j = false) → InForm w (b + 1))

/-- R65: the length follows from lane 0 alone. The scan of lane 0 and the detector on the 64-bit `low` agree. -/
def Obligations.LengthFollowsFromLaneZero : Prop :=
  ∀ (w : Window) (s : State), ∃ t, exec (decode (.decWindow w)) s = .next t ∧
    (∀ b, b < 8 → (lane w 0).getLsbD b = true → (∀ j, j < b → (lane w 0).getLsbD j = false) →
      t.decLen.toNat = b + 1 ∧ ctz64 (memRead64 w 0) = b) ∧
    (lane w 0 = 0 → t.decLen.toNat = 9 ∧ 8 ≤ ctz64 (memRead64 w 0))

/-- A few words written out from the rows of spec/opcode_table.json and R63 decode to their operation. -/
def Obligations.TableWordsDecode : Prop :=
  decodeTableWord 72 0xA5A5A5A5A5A5A5A50B = some (.decL1 5 0xA5A5A5A5A5A5A5A5) ∧
  decodeTableWord 72 0xFFFFFFFFFFFFFF02B2 = some (.decL2 172 0xFFFFFFFFFFFFFF) ∧
  decodeTableWord 72 0x42FDFBF7EFDFBF8080 = some (.decL8 0xFDFBF7EFDFBF80 0x42) ∧
  decodeTableWord 72 0x010204081020408000 = some (.decL9 72624976668147840) ∧
  decode (.encValue 127) = .encB0 127 ∧ decode (.encValue 128) = .encB1 128 ∧
  decode (.encValue 72624976668147839) = .encB7 72624976668147839 ∧
  decode (.encValue 72624976668147840) = .encB8 72624976668147840

/-! ## Byte order and lanes -/

/-- R43: lane `j` in `[1, 8)` is byte `j` of `low` and byte `j-1` of the second view, and lane 0 alone decides which view
gives the result. -/
def Obligations.TwoViewsShareTheirLanes : Prop :=
  ∀ w : Window,
    (∀ j, 1 ≤ j → j < 8 → byteLE (memRead64 w 0) j = lane w j ∧ byteLE (memRead64 w 1) (j - 1) = lane w j) ∧
    (∀ s, ∃ t, exec (decode (.decWindow w)) s = .next t ∧
      (lane w 0 = 0 → t.decValue = memRead64 w 1) ∧
      (∀ n, 1 ≤ n → n ≤ 8 → InForm w n → t.decValue.toNat = (memRead64 w 0).toNat / 2 ^ n % 2 ^ (7 * n) + offset (n - 1)))

/-- Little-endian reads and writes are inverse (R10, R11): after `MemWrite(a, n, v)` the lanes `[a, a+n)` read as the low
`8n` bits of `v`, and every other lane is as before. -/
def Obligations.WriteThenReadLittleEndian : Prop :=
  ∀ (w : Window) (a n : Nat) (v : Value), n ≤ 8 → a + n ≤ 9 →
    le (memWrite w a n v) a n = v.toNat % 2 ^ (8 * n) ∧
    (∀ j, j < n → lane (memWrite w a n v) (a + j) = byteLE v j) ∧
    (∀ j, j < 9 → (j < a ∨ a + n ≤ j) → lane (memWrite w a n v) j = lane w j)

/-! ## The Range Partition -/

/-- R101, R106, R107, R108: the values of the Offset table, by the recurrence of R100, and of the shift pair. -/
def Obligations.RangePartitionValues : Prop :=
  (List.range 9).map offset = [0, 128, 16512, 2113664, 270549120, 34630287488, 4432676798592, 567382630219904,
    72624976668147840] ∧
  (∀ k, 1 ≤ k → k ≤ 8 → offset k = offset (k - 1) + 2 ^ (7 * k) ∧ (offsetWord k).toNat = offset k) ∧
  (List.range' 1 8).map left = [56, 48, 40, 32, 24, 16, 8, 0] ∧
  (List.range' 1 8).map right = [57, 50, 43, 36, 29, 22, 15, 8] ∧
  (∀ n, 1 ≤ n → n ≤ 8 → left n = 8 * (8 - n) ∧ right n = left n + n ∧ right n = 64 - 7 * n)

/-- R110, R121: `band(v)` is the unique `k` whose bounds hold the value, and the encoder selects that row. -/
def Obligations.BandIsTheUniquePartition : Prop :=
  ∀ v : Value, (∃! k, k ≤ 8 ∧ offset k ≤ v.toNat ∧ v.toNat < bandEnd k) ∧
    band v ≤ 8 ∧ offset (band v) ≤ v.toNat ∧ v.toNat < bandEnd (band v) ∧
    bandOf (decode (.encValue v)) = some (band v)

/-- Every payload of a form `Ln` with `n` in `[1, 8]` is the image of exactly one value of band `B(n-1)` (R105). -/
def Obligations.EveryPayloadIsOneValue : Prop :=
  ∀ k p : Nat, k < 8 → p < 2 ^ (7 * (k + 1)) → ∃! v : Value, band v = k ∧ v.toNat - offset k = p

/-! ## The encoder's stages -/

/-- R122: the bias subtraction never borrows and its result fits in `7n` bits; band B8 subtracts no bias. -/
def Obligations.BiasNeverBorrows : Prop :=
  ∀ v : Value,
    (band v < 8 → offset (band v) ≤ v.toNat ∧
      (biasSubtract v (offsetWord (band v))).toNat = v.toNat - offset (band v) ∧
      (biasSubtract v (offsetWord (band v))).toNat < 2 ^ (7 * (band v + 1))) ∧
    (band v = 8 → ∀ s, ∃ t, exec (decode (.encValue v)) s = .next t ∧ le t.encWindow 1 8 = v.toNat)

/-- R123: `P` holds the biased value at `[8n-1:n]`, the marker at bit `n-1` and zeros below, fits in `8n` bits, and is the
source's `((biased << 1) | 1) << (n-1)`. -/
def Obligations.PackLosesNoPayloadBit : Prop :=
  ∀ (b : Value) (n : Nat), 1 ≤ n → n ≤ 8 → b.toNat < 2 ^ (7 * n) →
    (packMarker b n).toNat < 2 ^ (8 * n) ∧
    (∀ j, j < 7 * n → (packMarker b n).getLsbD (n + j) = b.getLsbD j) ∧
    (packMarker b n).getLsbD (n - 1) = true ∧
    (∀ j, j < n - 1 → (packMarker b n).getLsbD j = false) ∧
    packMarker b n = ((b <<< 1) ||| 1#64) <<< (n - 1) ∧
    (∀ w, le (memWrite w 0 n (packMarker b n)) 0 n = (packMarker b n).toNat)

/-- R125: `enc_be[i] = 1` exactly for `i < n`, so `enc_be = 2^n - 1`, and a host buffer written through the enables holds
the encoding in lanes `[0, n)` and its old contents in lanes `[n, 9)`. -/
def Obligations.ByteEnablesPreserveTheBuffer : Prop :=
  ∀ (v : Value) (s : State), ∃ t, exec (decode (.encValue v)) s = .next t ∧
    t.encBe.toNat = 2 ^ t.encLen.toNat - 1 ∧
    (∀ i, i < 9 → t.encBe.getLsbD i = decide (i < t.encLen.toNat)) ∧
    (∀ old i, i < 9 → lane (writeThrough t.encBe t.encWindow old) i =
      if i < t.encLen.toNat then lane t.encWindow i else lane old i)

/-- R138: `enc_len = band(v) + 1`, which is the shortest length whose band holds the value, and it is monotonic. -/
def Obligations.EncodingIsMinimalAndMonotonic : Prop :=
  (∀ (v : Value) (s : State), ∃ t, exec (decode (.encValue v)) s = .next t ∧ t.encLen.toNat = band v + 1 ∧
    (∀ n, 1 ≤ n → n ≤ 9 → offset (n - 1) ≤ v.toNat → v.toNat < bandEnd (n - 1) → t.encLen.toNat ≤ n)) ∧
  (∀ (v v' : Value) (s s' : State), v.toNat ≤ v'.toNat → ∃ t t', exec (decode (.encValue v)) s = .next t ∧
    exec (decode (.encValue v')) s' = .next t' ∧ t.encLen.toNat ≤ t'.encLen.toNat)

/-- R139: the lengths at the two sides of every band boundary, and at the top of the domain. -/
def Obligations.BandBoundariesAreExact : Prop :=
  (∀ (k : Nat) (s : State), 1 ≤ k → k ≤ 8 → ∃ t t',
    exec (decode (.encValue (BitVec.ofNat 64 (offset k - 1)))) s = .next t ∧ t.encLen.toNat = k ∧
    exec (decode (.encValue (BitVec.ofNat 64 (offset k)))) s = .next t' ∧ t'.encLen.toNat = k + 1) ∧
  (∀ s, ∃ t, exec (decode (.encValue 18446744073709551615)) s = .next t ∧ t.encLen.toNat = 9)

/-- R140: whatever the tail lanes hold, the window ENC drives is in the form of its length. -/
def Obligations.EncoderProducesItsForm : Prop :=
  (∀ (v : Value) (tail : Window), InForm (encUnit v tail).window (encUnit v tail).len.toNat ∧
    (band v < 8 → lane (encUnit v tail).window 0 ≠ 0 ∧
      (lane (encUnit v tail).window 0).getLsbD ((encUnit v tail).len.toNat - 1) = true ∧
      ∀ j, j < (encUnit v tail).len.toNat - 1 → (lane (encUnit v tail).window 0).getLsbD j = false) ∧
    (band v = 8 → lane (encUnit v tail).window 0 = 0)) ∧
  (∀ (v : Value) (s : State), ∃ t, exec (decode (.encValue v)) s = .next t ∧ InForm t.encWindow t.encLen.toNat)

/-- R137: every value gives one length, one setting of the enables and one content of lanes `[0, n)`, in every state. -/
def Obligations.EncoderIsTotal : Prop :=
  ∀ v : Value, ∃ (n : Nat) (bytes : List Byte), 1 ≤ n ∧ n ≤ 9 ∧ bytes.length = n ∧
    ∀ s, ∃ t, exec (decode (.encValue v)) s = .next t ∧ t.encLen.toNat = n ∧ t.encBe.toNat = 2 ^ n - 1 ∧
      (List.range n).map (lane t.encWindow) = bytes

/-- The rows of ENC, written with their rules' own numbers, are the one function of R120 on the value and the state's
draw. -/
def Obligations.EncRowsAgreeWithTheUnit : Prop :=
  ∀ (v : Value) (s : State),
    exec (decode (.encValue v)) s = .next (s.driveEnc v (encUnit v (Config.encTail s.draws)))

/-- R141: the reference datapath, with its thermometer code, drives what ENC drives, for the tail that has the packed
integer's zeros in lanes `[n, 8)`, whatever it has in lane 8. -/
def Obligations.EncoderDatapathConforms : Prop :=
  ∀ (v : Value) (tail8 : Byte),
    (∃ tail, encDatapath v tail8 = encUnit v tail) ∧
    (∀ i j, 1 ≤ i → i ≤ j → j ≤ 8 → comparator v j = true → comparator v i = true) ∧ thermometerCount v = band v

/-! ## The decoder's stages -/

/-- R155: bit by bit, the two shifts select the field `low[8n-1:n]`. -/
def Obligations.UnpackSelectsThePayload : Prop :=
  ∀ (low : Value) (n : Nat), 1 ≤ n → n ≤ 8 →
    (unpack low (left n) (right n)).toNat = low.toNat / 2 ^ n % 2 ^ (7 * n) ∧
    (∀ j, j < 8 * n → (low <<< left n).getLsbD (j + 64 - 8 * n) = low.getLsbD j) ∧
    (∀ j, n ≤ j → j < 8 * n → (unpack low (left n) (right n)).getLsbD (j - n) = low.getLsbD j) ∧
    (∀ j, 7 * n ≤ j → (unpack low (left n) (right n)).getLsbD j = false)

/-- R156: the unbias addition is exact and its result lies in band `B(n-1)`. -/
def Obligations.UnbiasNeverCarries : Prop :=
  ∀ (u : Value) (n : Nat), 1 ≤ n → n ≤ 8 → u.toNat < 2 ^ (7 * n) →
    (unbias u (offsetWord (n - 1))).toNat = u.toNat + offset (n - 1) ∧
    (unbias u (offsetWord (n - 1))).toNat ≤ offset n - 1 ∧ offset n - 1 ≤ offset 8 - 1 ∧ offset 8 - 1 < 2 ^ 64 ∧
    band (unbias u (offsetWord (n - 1))) = n - 1

/-- R168: every window gives exactly one pair, in every state, with no exception. -/
def Obligations.DecoderIsTotal : Prop :=
  ∀ w : Window, ∃! o : DecOut, ∀ s, ∃ t, exec (decode (.decWindow w)) s = .next t ∧ t.decValue = o.value ∧ t.decLen = o.len

/-- R169: for a length below 9 the outputs depend on lanes `[0, n)` only; for length 9, on lane 0 being 0x00 and on the
lanes `[1, 9)` as the value, all of which matter. -/
def Obligations.TailLanesDoNotMatter : Prop :=
  ∀ (w w' : Window) (s s' : State), ∃ t t', exec (decode (.decWindow w)) s = .next t ∧
    exec (decode (.decWindow w')) s' = .next t' ∧
    (t.decLen.toNat ≤ 8 → (∀ i, i < t.decLen.toNat → lane w' i = lane w i) →
      t'.decValue = t.decValue ∧ t'.decLen = t.decLen) ∧
    (t.decLen.toNat = 9 → lane w 0 = 0 ∧ t.decValue = memRead64 w 1 ∧
      (t'.decLen = t.decLen → t'.decValue = t.decValue → w' = w))

/-- R170: a window whose lane 0 is 0x00 decodes to its raw value with length 9, also when a shorter form could hold the
value. -/
def Obligations.SupernormalFormsAreAccepted : Prop :=
  (∀ (w : Window) (s : State), lane w 0 = 0 → ∃ t, exec (decode (.decWindow w)) s = .next t ∧
    t.decValue = memRead64 w 1 ∧ t.decLen.toNat = 9) ∧
  (∀ (v : Value) (s : State), ∃ t, exec (decode (.decWindow (windowL9 v))) s = .next t ∧ t.decValue = v ∧
    t.decLen.toNat = 9)

/-- R70: below `Offset[8]` a value has exactly its canonical encoding and its supernormal one; from `Offset[8]` on it has
one. The encoder never produces a supernormal one. -/
def Obligations.EncodingsOfAValue : Prop :=
  (∀ (w tail : Window) (s : State), ∃ t, exec (decode (.decWindow w)) s = .next t ∧
    ((t.decLen.toNat = band t.decValue + 1 ∧
        ∀ i, i < t.decLen.toNat → lane w i = lane (encUnit t.decValue tail).window i) ∨
      (t.decLen.toNat = 9 ∧ t.decValue.toNat < offset 8 ∧ w = windowL9 t.decValue)) ∧
    ((encUnit t.decValue tail).len.toNat = 9 → offset 8 ≤ t.decValue.toNat)) ∧
  (∀ (v : Value) (tail : Window) (s : State), v.toNat < offset 8 →
    (∃ t, exec (decode (.decWindow (encUnit v tail).window)) s = .next t ∧ t.decValue = v ∧ t.decLen.toNat ≤ 8) ∧
    (∃ t, exec (decode (.decWindow (windowL9 v))) s = .next t ∧ t.decValue = v ∧ t.decLen.toNat = 9))

/-- R171: for every value and every draw of the tail, decoding the window ENC drives gives back the value and the length;
on the machine, in whatever states the two operations are performed. -/
def Obligations.RoundTrip : Prop :=
  (∀ (v : Value) (tail : Window), decUnit (encUnit v tail).window = ⟨v, (encUnit v tail).len⟩) ∧
  (∀ (v : Value) (s s' : State), ∃ t u, exec (decode (.encValue v)) s = .next t ∧
    exec (decode (.decWindow t.encWindow)) s' = .next u ∧ u.decValue = v ∧ u.decLen = t.encLen)

/-- R172: re-encoding what a window of a short form decodes to reproduces its lanes `[0, n)`; an L9 window is reproduced
exactly when its value is at least `Offset[8]`, and otherwise the encoding is shorter. -/
def Obligations.CanonicalReencoding : Prop :=
  (∀ (w : Window) (s s' : State), ∃ t u, exec (decode (.decWindow w)) s = .next t ∧
    exec (decode (.encValue t.decValue)) s' = .next u ∧
    (∀ n, 1 ≤ n → n ≤ 8 → InForm w n → t.decLen.toNat = n ∧ band t.decValue = n - 1 ∧ u.encLen = t.decLen ∧
      ∀ i, i < n → lane u.encWindow i = lane w i) ∧
    (InForm w 9 → (offset 8 ≤ t.decValue.toNat → u.encWindow = w ∧ u.encLen.toNat = 9) ∧
      (t.decValue.toNat < offset 8 → u.encLen.toNat < 9))) ∧
  StartDecodesTo [0x00, 0x05, 0x00, 0x00, 0x00, 0x00, 0x00, 0x00, 0x00] 5 9 ∧ GivesLanes (decode (.encValue 5)) [0x0B]

/-- The rows of DEC, written with their rules' own numbers, are the one function of R150 on the window. -/
def Obligations.DecRowsAgreeWithTheUnit : Prop :=
  ∀ (w : Window) (s : State), exec (decode (.decWindow w)) s = .next (s.driveDec w (decUnit w))

/-- R173: the reference datapath drives what DEC drives. -/
def Obligations.DecoderDatapathConforms : Prop := ∀ w : Window, decDatapath w = decUnit w

/-! ## The machine -/

/-- When the next stimulus is proper, a step is exec of the operation its word selects, after the environment has moved
past it. With nothing presented, the state stays (R25; the model's convention, notes/assumptions/9). -/
def Obligations.StepRunsThePresentedOperation : Prop :=
  (∀ (s : State) (x : Stimulus) (rest : List Stimulus), s.schedule = x :: rest → x.proper →
    (decode x.port).WellFormed ∧ step s = exec (decode x.port) { s with schedule := rest }) ∧
  (∀ s : State, s.schedule = [] → step s = .next s)

/-- `withFetchWord` has the very next step run the operation the decoder reads from the word. -/
def Obligations.FetchWordRunsNext : Prop :=
  ∀ (s : State) (nbits w : Nat), nbits ≤ 72 →
    ∃ i, decodeTableWord nbits w = some i ∧ step (s.withFetchWord nbits w) = exec i s

/-- R200: neither unit raises any exception, for any input: every operation completes, driving the ports of its own unit
only and a length in `[1, 9]`, and there is no reason for a fault. -/
def Obligations.NoOperationRaisesAnException : Prop :=
  (Fault → False) ∧
  ∀ (i : Instr) (s : State), i.WellFormed → ∃ t, exec i s = .next t ∧ t.schedule = s.schedule ∧
    (formOf i = none → t.draws = s.draws + 1 ∧ t.decWindow = s.decWindow ∧ t.decValue = s.decValue ∧
      t.decLen = s.decLen ∧ 1 ≤ t.encLen.toNat ∧ t.encLen.toNat ≤ 9) ∧
    (bandOf i = none → t.draws = s.draws ∧ t.encValue = s.encValue ∧ t.encWindow = s.encWindow ∧
      t.encLen = s.encLen ∧ t.encBe = s.encBe ∧ 1 ≤ t.decLen.toNat ∧ t.decLen.toNat ≤ 9)

/-- Which presentations a step refuses, and by which name: a window whose buffer is being written (R52, U2), an input
sampled before it was stable for `T_PD` (R222, U5), an undriven input (U7). A held input with no writer completes. The
length of the hold needed is the open `T_PD` (notes/assumptions/15); that a race is named before a bad hold is the model's
order (notes/assumptions/8). -/
def Obligations.HazardsAreRefused : Prop :=
  (∀ (s : State) (rest : List Stimulus) (v : Value) (w : Window),
    (∀ hold, s.schedule = .decode w hold true :: rest → step s = .refused .bufferRace) ∧
    (s.schedule = .encode v .early :: rest → step s = .refused .inputNotStable) ∧
    (s.schedule = .decode w .early false :: rest → step s = .refused .inputNotStable) ∧
    (s.schedule = .encode v .undriven :: rest → step s = .refused .inputUndriven) ∧
    (s.schedule = .decode w .undriven false :: rest → step s = .refused .inputUndriven) ∧
    (s.schedule = .encode v .stable :: rest → ∃ t, step s = .next t) ∧
    (s.schedule = .decode w .stable false :: rest → ∃ t, step s = .next t)) ∧
  (∀ elapsed, (holdFor elapsed = .stable ↔ Config.tPd ≤ elapsed) ∧ (holdFor elapsed = .early ↔ elapsed < Config.tPd))

/-- The outputs of both units are always the functions of their present inputs (R20, R25, R32): every step keeps it. -/
def Obligations.StepKeepsCombinational : Prop :=
  ∀ s t : State, s.Combinational → step s = .next t → t.Combinational

/-- The state after reset is one in which the outputs are the functions of the inputs. The inputs there are the model's
choice (notes/assumptions/3), and that they are taken as settled is notes/assumptions/4. -/
def Obligations.ResetIsCombinational : Prop := State.reset.Combinational

/-- Lengths stay in `[1, 9]` and the enables stay those of the length (R26), in every state whose outputs are the functions
of its inputs. -/
def Obligations.LengthsStayInRange : Prop :=
  ∀ s t : State, s.Combinational → step s = .next t →
    (1 ≤ t.encLen.toNat ∧ t.encLen.toNat ≤ 9) ∧ (1 ≤ t.decLen.toNat ∧ t.decLen.toNat ≤ 9) ∧
      t.encBe.toNat = 2 ^ t.encLen.toNat - 1

/-- No shared mutable state (R1): a step drives the ports of at most one unit, and it is the unit whose input was
presented. -/
def Obligations.StepDrivesOneUnit : Prop :=
  ∀ s t : State, step s = .next t →
    (s.schedule = [] ∧ t = s) ∨
    (∃ v hold, s.schedule = .encode v hold :: t.schedule ∧ t.encValue = v ∧ t.draws = s.draws + 1 ∧
      t.decWindow = s.decWindow ∧ t.decValue = s.decValue ∧ t.decLen = s.decLen) ∨
    (∃ w hold overlap, s.schedule = .decode w hold overlap :: t.schedule ∧ t.decWindow = w ∧ t.draws = s.draws ∧
      t.encValue = s.encValue ∧ t.encWindow = s.encWindow ∧ t.encLen = s.encLen ∧ t.encBe = s.encBe)

/-- The units do not depend on each other (R1): an ENC and a DEC operation give the same state in either order. -/
def Obligations.UnitsCommute : Prop :=
  ∀ (v : Value) (w : Window) (s : State), ∃ a b c,
    exec (decode (.encValue v)) s = .next a ∧ exec (decode (.decWindow w)) a = .next c ∧
    exec (decode (.decWindow w)) s = .next b ∧ exec (decode (.encValue v)) b = .next c

/-- No retained state (R20, R31, R49): in any two states, the same input gives the same outputs, apart from the encoder's
tail lanes, and doing a DEC operation again changes nothing. -/
def Obligations.OutputsDependOnTheInputAlone : Prop :=
  (∀ (w : Window) (s s' : State), ∃ t t', exec (decode (.decWindow w)) s = .next t ∧
    exec (decode (.decWindow w)) s' = .next t' ∧ t'.decValue = t.decValue ∧ t'.decLen = t.decLen) ∧
  (∀ (v : Value) (s s' : State), ∃ t t', exec (decode (.encValue v)) s = .next t ∧
    exec (decode (.encValue v)) s' = .next t' ∧ t'.encLen = t.encLen ∧ t'.encBe = t.encBe ∧
    ∀ i, i < t.encLen.toNat → lane t'.encWindow i = lane t.encWindow i) ∧
  (∀ (w : Window) (s : State), ∃ t, exec (decode (.decWindow w)) s = .next t ∧
    exec (decode (.decWindow w)) t = .next t)

/-- A run whose every presentation is proper never stops, and moves through the whole schedule (R137, R168, R200). The
schedule is the model's own field (notes/assumptions/2); for `k` past its end the run goes on by steps with nothing
presented, which leave the state (the model's reading of R25, notes/assumptions/9). -/
def Obligations.ProperRunsNeverStop : Prop :=
  ∀ (k : Nat) (s : State), s.ProperSchedule →
    ∃ t, Host.Core.run Sys2Proof.core k s = .next t ∧ t.schedule = s.schedule.drop k

/-- Framing (R201, R225): a host that drives an encoding at the start of its window gets the value and the length back,
whatever follows the encoding in the stream and whatever it drives past the stream's end. -/
def Obligations.FramedEncodingDecodes : Prop :=
  ∀ (v : Value) (tail pad : Window) (rest : List Byte),
    DecodesTo (frameWindow pad ((List.range (encUnit v tail).len.toNat).map (lane (encUnit v tail).window) ++ rest))
      v.toNat (encUnit v tail).len.toNat
end

