-- ==== Sys2Proof/Laws/Operands.lean ====
section
/-! SUPPORT. What a lane read gives after a lane write, and the little-endian reads and writes as arithmetic: the facts
later proofs cite instead of unfolding lanes into bits. -/

namespace Sys2Proof

/-! ## Lanes -/

theorem getLsbD_lane (w : Window) (i j : Nat) : (lane w i).getLsbD j = (decide (j < 8) && w.getLsbD (8 * i + j)) := by
  simp [lane, BitVec.getLsbD_extractLsb']

theorem toNat_lane (w : Window) (i : Nat) : (lane w i).toNat = w.toNat / 2 ^ (8 * i) % 2 ^ 8 := by
  simp [lane, Nat.shiftRight_eq_div_pow]

theorem getLsbD_setLane (w : Window) (i : Nat) (b : Byte) (j : Nat) (hj : j < 72) :
    (setLane w i b).getLsbD j = if j / 8 = i then b.getLsbD (j % 8) else w.getLsbD j := by
  have hff : ∀ m, (0xFF#72).getLsbD m = decide (m < 8) := by
    intro m
    have h : (0xFF#72) = (BitVec.allOnes 8).setWidth 72 := by decide
    rw [h, BitVec.getLsbD_setWidth, BitVec.getLsbD_allOnes]
    by_cases hm : m < 8 <;> simp [hm]
    omega
  simp only [setLane, BitVec.getLsbD_or, BitVec.getLsbD_and, BitVec.getLsbD_not, BitVec.getLsbD_shiftLeft,
    BitVec.getLsbD_setWidth, hff, hj, decide_true, Bool.true_and]
  split
  · next h =>
    subst h
    have h1 : ¬ j < 8 * (j / 8) := by omega
    have h2 : j - 8 * (j / 8) = j % 8 := by omega
    have h3 : j % 8 < 8 := by omega
    have h4 : j % 8 < 72 := by omega
    simp [h1, h2, h3, h4]
  · next h =>
    by_cases h1 : j < 8 * i
    · simp [h1]
    · have h2 : ¬ j - 8 * i < 8 := by omega
      have h3 : b.getLsbD (j - 8 * i) = false := BitVec.getLsbD_of_ge _ _ (by omega)
      simp [h2, h3]

theorem lane_setLane (w : Window) (i j : Nat) (b : Byte) (hj : j < 9) :
    lane (setLane w i b) j = if j = i then b else lane w j := by
  apply BitVec.eq_of_getLsbD_eq
  intro m hm
  rw [getLsbD_lane, getLsbD_setLane _ _ _ _ (by omega)]
  have h1 : (8 * j + m) / 8 = j := by omega
  have h2 : (8 * j + m) % 8 = m := by omega
  rw [h1, h2]
  split
  · simp [hm]
  · rw [getLsbD_lane]

/-- A window is its nine lanes. -/
theorem window_ext {w w' : Window} (h : ∀ i, i < 9 → lane w i = lane w' i) : w = w' := by
  apply BitVec.eq_of_getLsbD_eq
  intro j hj
  have hl := congrArg (fun b : Byte => b.getLsbD (j % 8)) (h (j / 8) (by omega))
  simp only [getLsbD_lane] at hl
  have h1 : 8 * (j / 8) + j % 8 = j := by omega
  have h2 : j % 8 < 8 := by omega
  simpa [h1, h2] using hl

/-! ## Little-endian reads -/

/-- `LE(W, a, k)` is the field of `8k` bits from bit `8a` (spec/92_eei_decisions.md D4). -/
theorem le_eq (w : Window) (a k : Nat) : le w a k = w.toNat / 2 ^ (8 * a) % 2 ^ (8 * k) := by
  induction k with
  | zero => simp [le, Nat.mod_one]
  | succ k ih =>
    rw [le, ih, toNat_lane, show 8 * (k + 1) = 8 * k + 8 by ring, Nat.pow_add 2 (8 * k) 8, Nat.mod_mul,
      show 8 * (a + k) = 8 * a + 8 * k by ring, Nat.pow_add, Nat.div_div_eq_div_mul, Nat.mul_comm (_ % _)]

theorem memRead64_eq (w : Window) (a : Nat) : memRead64 w a = w.extractLsb' (8 * a) 64 := by
  apply BitVec.eq_of_toNat_eq
  simp [memRead64, le_eq, Nat.shiftRight_eq_div_pow]

theorem toNat_memRead64 (w : Window) (a : Nat) : (memRead64 w a).toNat = le w a 8 := by
  rw [memRead64, BitVec.toNat_ofNat, Nat.mod_eq_of_lt]
  rw [le_eq]
  exact Nat.mod_lt _ (by positivity)

theorem getLsbD_memRead64 (w : Window) (a j : Nat) :
    (memRead64 w a).getLsbD j = (decide (j < 64) && w.getLsbD (8 * a + j)) := by
  rw [memRead64_eq, BitVec.getLsbD_extractLsb']

/-! ## Little-endian writes -/

theorem lane_memWrite (w : Window) (a n : Nat) (v : Value) (j : Nat) (hj : j < 9) :
    lane (memWrite w a n v) j = if a ≤ j ∧ j < a + n then byteLE v (j - a) else lane w j := by
  induction n with
  | zero =>
    rw [memWrite, if_neg (by omega)]
  | succ n ih =>
    rw [memWrite, lane_setLane _ _ _ _ hj, ih]
    by_cases h : j = a + n
    · subst h
      simp
    · have h2 : (a ≤ j ∧ j < a + (n + 1)) ↔ (a ≤ j ∧ j < a + n) := by omega
      simp [h, h2]

theorem toNat_byteLE (v : Value) (j : Nat) : (byteLE v j).toNat = v.toNat / 2 ^ (8 * j) % 2 ^ 8 := by
  simp [byteLE, Nat.shiftRight_eq_div_pow]

/-- Reading back what was written: the low `8k` bits of the value. -/
theorem le_memWrite (w : Window) (a n k : Nat) (v : Value) (hk : k ≤ n) (h : a + n ≤ 9) :
    le (memWrite w a n v) a k = v.toNat % 2 ^ (8 * k) := by
  induction k with
  | zero => simp [le, Nat.mod_one]
  | succ k ih =>
    rw [le, ih (by omega), lane_memWrite _ _ _ _ _ (by omega), if_pos (by omega), Nat.add_sub_cancel_left,
      toNat_byteLE, show 8 * (k + 1) = 8 * k + 8 by ring, Nat.pow_add 2 (8 * k) 8, Nat.mod_mul, Nat.mul_comm (_ % _)]

/-- `LE` depends only on the lanes it reads. -/
theorem le_congr {w w' : Window} {a k : Nat} (h : ∀ j, j < k → lane w (a + j) = lane w' (a + j)) :
    le w a k = le w' a k := by
  induction k with
  | zero => rfl
  | succ k ih => rw [le, le, ih fun j hj => h j (by omega), h k (by omega)]

/-- The lanes below `k` are determined by `LE(W, a, k)`. -/
theorem lane_of_le {w w' : Window} {a k : Nat} (h : le w a k = le w' a k) (j : Nat) (hj : j < k) :
    lane w (a + j) = lane w' (a + j) := by
  apply BitVec.eq_of_toNat_eq
  have key : ∀ x : Window, (lane x (a + j)).toNat = le x a k / 2 ^ (8 * j) % 2 ^ 8 := by
    intro x
    have h1 : 2 ^ (8 * k) = 2 ^ (8 * j) * 2 ^ (8 * (k - j)) := by rw [← Nat.pow_add]; congr 1; omega
    have h2 : 2 ^ 8 ∣ 2 ^ (8 * (k - j)) := Nat.pow_dvd_pow 2 (by omega)
    rw [le_eq, toNat_lane, h1, Nat.mod_mul_right_div_self, Nat.mod_mod_of_dvd _ h2, show 8 * (a + j) = 8 * a + 8 * j by ring,
      Nat.pow_add, Nat.div_div_eq_div_mul]
  rw [key, key, h]

/-! ## Windows and bytes -/

theorem windowOfBytes_cons (b : Byte) (rest : List Byte) :
    windowOfBytes (b :: rest) = (windowOfBytes rest <<< 8) ||| b.setWidth 72 := rfl

theorem lane_windowOfBytes (bytes : List Byte) (i : Nat) (hi : i < 9) :
    lane (windowOfBytes bytes) i = bytes.getD i 0#8 := by
  induction bytes generalizing i with
  | nil => simp [windowOfBytes, lane]
  | cons b rest ih =>
    apply BitVec.eq_of_getLsbD_eq
    intro m hm
    rw [getLsbD_lane, windowOfBytes_cons, BitVec.getLsbD_or, BitVec.getLsbD_shiftLeft, BitVec.getLsbD_setWidth]
    cases i with
    | zero =>
      have h1 : m < 72 := by omega
      simp [hm, h1]
    | succ i =>
      have h1 : 8 * (i + 1) + m - 8 = 8 * i + m := by omega
      have h2 : 8 * (i + 1) + m < 72 := by omega
      have h3 : ¬ 8 * (i + 1) + m < 8 := by omega
      have h4 : b.getLsbD (8 * (i + 1) + m) = false := BitVec.getLsbD_of_ge _ _ (by omega)
      have := congrArg (fun x : Byte => x.getLsbD m) (ih i (by omega))
      simp only [getLsbD_lane, hm, decide_true, Bool.true_and] at this
      simp only [h1, h2, h3, h4, hm, decide_true, decide_false, Bool.true_and, Bool.not_false, Bool.and_false, Bool.or_false,
        this, List.getD_cons_succ]

@[simp] theorem length_bytesOfWindow (w : Window) : (bytesOfWindow w).length = 9 := by simp [bytesOfWindow]

@[simp] theorem windowOfBytes_bytesOfWindow (w : Window) : windowOfBytes (bytesOfWindow w) = w := by
  apply window_ext
  intro i hi
  rw [lane_windowOfBytes _ _ hi]
  simp [bytesOfWindow, hi]

/-! ## The windows of the nine forms as numbers (R61 to R63) -/

theorem toNat_append_eq {m n : Nat} (x : BitVec m) (y : BitVec n) : (x ++ y).toNat = x.toNat * 2 ^ n + y.toNat := by
  rw [BitVec.toNat_append, Nat.shiftLeft_eq, Nat.mul_comm, Nat.two_pow_add_eq_or_of_lt y.isLt]

theorem toNat_windowL1 (payload : BitVec 7) (tail : BitVec 64) :
    (windowL1 payload tail).toNat = tail.toNat * 2 ^ 8 + payload.toNat * 2 ^ 1 + 2 ^ 0 := by
  have h : (0b1#1).toNat = 2 ^ 0 := by decide
  rw [windowL1, toNat_append_eq, toNat_append_eq, h]
  ring

theorem toNat_windowL2 (payload : BitVec 14) (tail : BitVec 56) :
    (windowL2 payload tail).toNat = tail.toNat * 2 ^ 16 + payload.toNat * 2 ^ 2 + 2 ^ 1 := by
  have h : (0b10#2).toNat = 2 ^ 1 := by decide
  rw [windowL2, toNat_append_eq, toNat_append_eq, h]
  ring

theorem toNat_windowL3 (payload : BitVec 21) (tail : BitVec 48) :
    (windowL3 payload tail).toNat = tail.toNat * 2 ^ 24 + payload.toNat * 2 ^ 3 + 2 ^ 2 := by
  have h : (0b100#3).toNat = 2 ^ 2 := by decide
  rw [windowL3, toNat_append_eq, toNat_append_eq, h]
  ring

theorem toNat_windowL4 (payload : BitVec 28) (tail : BitVec 40) :
    (windowL4 payload tail).toNat = tail.toNat * 2 ^ 32 + payload.toNat * 2 ^ 4 + 2 ^ 3 := by
  have h : (0b1000#4).toNat = 2 ^ 3 := by decide
  rw [windowL4, toNat_append_eq, toNat_append_eq, h]
  ring

theorem toNat_windowL5 (payload : BitVec 35) (tail : BitVec 32) :
    (windowL5 payload tail).toNat = tail.toNat * 2 ^ 40 + payload.toNat * 2 ^ 5 + 2 ^ 4 := by
  have h : (0b10000#5).toNat = 2 ^ 4 := by decide
  rw [windowL5, toNat_append_eq, toNat_append_eq, h]
  ring

theorem toNat_windowL6 (payload : BitVec 42) (tail : BitVec 24) :
    (windowL6 payload tail).toNat = tail.toNat * 2 ^ 48 + payload.toNat * 2 ^ 6 + 2 ^ 5 := by
  have h : (0b100000#6).toNat = 2 ^ 5 := by decide
  rw [windowL6, toNat_append_eq, toNat_append_eq, h]
  ring

theorem toNat_windowL7 (payload : BitVec 49) (tail : BitVec 16) :
    (windowL7 payload tail).toNat = tail.toNat * 2 ^ 56 + payload.toNat * 2 ^ 7 + 2 ^ 6 := by
  have h : (0b1000000#7).toNat = 2 ^ 6 := by decide
  rw [windowL7, toNat_append_eq, toNat_append_eq, h]
  ring

theorem toNat_windowL8 (payload : BitVec 56) (tail : BitVec 8) :
    (windowL8 payload tail).toNat = tail.toNat * 2 ^ 64 + payload.toNat * 2 ^ 8 + 2 ^ 7 := by
  have h : (0b10000000#8).toNat = 2 ^ 7 := by decide
  rw [windowL8, toNat_append_eq, toNat_append_eq, h]
  ring

theorem toNat_windowL9 (value : Value) : (windowL9 value).toNat = value.toNat * 2 ^ 8 := by
  rw [windowL9, toNat_append_eq]
  simp

theorem getLsbD_eq_div (w : Window) (i : Nat) : w.getLsbD i = decide (w.toNat / 2 ^ i % 2 = 1) := by
  rw [BitVec.getLsbD, Nat.testBit_eq_decide_div_mod_eq]

end Sys2Proof
end

