-- ==== Sys2Proof/Laws/RangePartition.lean ====
section
/-! SUPPORT. The values of the Range Partition (spec/40_range_partition.md R101, R108) and the one fact about `band` that
later proofs cite: it is the band whose bounds hold the value. -/

namespace Sys2Proof

theorem offset_succ (k : Nat) : offset (k + 1) = offset k + 2 ^ (7 * (k + 1)) := rfl

@[simp] theorem offset_zero : offset 0 = 0 := rfl
@[simp] theorem offset_one : offset 1 = 128 := by decide
@[simp] theorem offset_two : offset 2 = 16512 := by decide
@[simp] theorem offset_three : offset 3 = 2113664 := by decide
@[simp] theorem offset_four : offset 4 = 270549120 := by decide
@[simp] theorem offset_five : offset 5 = 34630287488 := by decide
@[simp] theorem offset_six : offset 6 = 4432676798592 := by decide
@[simp] theorem offset_seven : offset 7 = 567382630219904 := by decide
@[simp] theorem offset_eight : offset 8 = 72624976668147840 := by decide

theorem offset_strictMono : StrictMono offset :=
  strictMono_nat_of_lt_succ fun k => by
    rw [offset_succ]
    have : 0 < 2 ^ (7 * (k + 1)) := by positivity
    omega

theorem toNat_offsetWord (k : Nat) (hk : k ≤ 8) : (offsetWord k).toNat = offset k := by
  rw [offsetWord, BitVec.toNat_ofNat, Nat.mod_eq_of_lt]
  have := offset_strictMono.monotone hk
  rw [offset_eight] at this
  omega

/-- The count of R110 written out over the eight boundaries. -/
theorem band_eq (v : Value) :
    band v = (if 128 ≤ v.toNat then 1 else 0) + (if 16512 ≤ v.toNat then 1 else 0) +
      (if 2113664 ≤ v.toNat then 1 else 0) + (if 270549120 ≤ v.toNat then 1 else 0) +
      (if 34630287488 ≤ v.toNat then 1 else 0) + (if 4432676798592 ≤ v.toNat then 1 else 0) +
      (if 567382630219904 ≤ v.toNat then 1 else 0) + (if 72624976668147840 ≤ v.toNat then 1 else 0) := by
  have h : List.range' 1 8 = [1, 2, 3, 4, 5, 6, 7, 8] := by decide
  simp only [band, h, List.countP_cons, List.countP_nil, offset_one, offset_two, offset_three, offset_four, offset_five,
    offset_six, offset_seven, offset_eight, decide_eq_true_eq]
  omega

theorem band_le (v : Value) : band v ≤ 8 := by
  rw [band_eq]
  split_ifs <;> omega

/-- The value lies in its band. -/
theorem band_bounds (v : Value) : offset (band v) ≤ v.toNat ∧ v.toNat < bandEnd (band v) := by
  have hv := v.isLt
  rw [band_eq]
  by_cases h1 : 128 ≤ v.toNat <;> by_cases h2 : 16512 ≤ v.toNat <;> by_cases h3 : 2113664 ≤ v.toNat <;>
    by_cases h4 : 270549120 ≤ v.toNat <;> by_cases h5 : 34630287488 ≤ v.toNat <;>
    by_cases h6 : 4432676798592 ≤ v.toNat <;> by_cases h7 : 567382630219904 ≤ v.toNat <;>
    by_cases h8 : 72624976668147840 ≤ v.toNat <;> first | omega | (simp [h1, h2, h3, h4, h5, h6, h7, h8, bandEnd]; try omega)

/-- A band whose bounds hold the value is its band. -/
theorem band_of_bounds {v : Value} {k : Nat} (hk : k ≤ 8) (h1 : offset k ≤ v.toNat) (h2 : v.toNat < bandEnd k) :
    band v = k := by
  obtain ⟨b1, b2⟩ := band_bounds v
  have hb := band_le v
  have hlt : ∀ {j m : Nat}, j < m → m ≤ 8 → bandEnd j ≤ offset m := by
    intro j m hjm hm
    rw [bandEnd, if_pos (by omega)]
    exact offset_strictMono.monotone hjm
  rcases Nat.lt_trichotomy (band v) k with h | h | h
  · have := hlt h hk
    omega
  · exact h
  · have := hlt h hb
    omega

end Sys2Proof
end

