-- ==== Sys2Proof/Laws/State.lean ====
section
/-! SUPPORT. One lemma for each field of each update of State, so that no proof unfolds a record update. -/

namespace Sys2Proof.Machine

variable (s : State) (v : Value) (w : Window) (o : EncOut) (d : DecOut)

namespace State

@[simp] theorem driveEnc_encValue : (s.driveEnc v o).encValue = v := rfl
@[simp] theorem driveEnc_encWindow : (s.driveEnc v o).encWindow = o.window := rfl
@[simp] theorem driveEnc_encLen : (s.driveEnc v o).encLen = o.len := rfl
@[simp] theorem driveEnc_encBe : (s.driveEnc v o).encBe = o.be := rfl
@[simp] theorem driveEnc_decWindow : (s.driveEnc v o).decWindow = s.decWindow := rfl
@[simp] theorem driveEnc_decValue : (s.driveEnc v o).decValue = s.decValue := rfl
@[simp] theorem driveEnc_decLen : (s.driveEnc v o).decLen = s.decLen := rfl
@[simp] theorem driveEnc_draws : (s.driveEnc v o).draws = s.draws + 1 := rfl
@[simp] theorem driveEnc_schedule : (s.driveEnc v o).schedule = s.schedule := rfl

@[simp] theorem driveDec_encValue : (s.driveDec w d).encValue = s.encValue := rfl
@[simp] theorem driveDec_encWindow : (s.driveDec w d).encWindow = s.encWindow := rfl
@[simp] theorem driveDec_encLen : (s.driveDec w d).encLen = s.encLen := rfl
@[simp] theorem driveDec_encBe : (s.driveDec w d).encBe = s.encBe := rfl
@[simp] theorem driveDec_decWindow : (s.driveDec w d).decWindow = w := rfl
@[simp] theorem driveDec_decValue : (s.driveDec w d).decValue = d.value := rfl
@[simp] theorem driveDec_decLen : (s.driveDec w d).decLen = d.len := rfl
@[simp] theorem driveDec_draws : (s.driveDec w d).draws = s.draws := rfl
@[simp] theorem driveDec_schedule : (s.driveDec w d).schedule = s.schedule := rfl

end State

end Sys2Proof.Machine
end

