-- ==== Sys2Proof/Laws/Ops.lean ====
section
/-! SUPPORT. For each shared operation, once, what it does: the facts later proofs cite instead of unfolding it. -/

namespace Sys2Proof.Machine

/-! ## The port operations: each answers a next state -/

@[simp] theorem opEncShort_eq (bias : Value) (n : Nat) (v : Value) (s : State) :
    opEncShort bias n v s = .next (s.driveEnc v (encShort bias n v (Config.encTail s.draws))) := rfl

@[simp] theorem opEncLong_eq (v : Value) (s : State) :
    opEncLong v s = .next (s.driveEnc v (encLong v (Config.encTail s.draws))) := rfl

@[simp] theorem opDecShort_eq (l r : Nat) (bias : Value) (n : Nat) (w : Window) (s : State) :
    opDecShort l r bias n w s = .next (s.driveDec w (decShort l r bias n w)) := rfl

@[simp] theorem opDecLong_eq (w : Window) (s : State) : opDecLong w s = .next (s.driveDec w (decLong w)) := rfl

/-! ## Length and byte enables -/

theorem toNat_lengthOut {n : Nat} (h : n ≤ 15) : (lengthOut n).toNat = n := by
  rw [lengthOut, BitVec.toNat_ofNat, Nat.mod_eq_of_lt (by omega)]

theorem toNat_byteEnables {n : Nat} (h : n ≤ 9) : (byteEnables n).toNat = 2 ^ n - 1 := by
  rw [byteEnables, BitVec.toNat_ofNat, Nat.mod_eq_of_lt]
  have : 2 ^ n ≤ 2 ^ 9 := Nat.pow_le_pow_right (by omega) h
  have : 0 < 2 ^ n := by positivity
  omega

theorem getLsbD_byteEnables {n : Nat} (h : n ≤ 9) (i : Nat) : (byteEnables n).getLsbD i = decide (i < n) := by
  rw [byteEnables, BitVec.getLsbD_ofNat, Nat.testBit_two_pow_sub_one]
  by_cases hi : i < n
  · have : i < 9 := by omega
    simp [hi, this]
  · simp [hi]

/-! ## The encoder's stages -/

theorem toNat_biasSubtract {v bias : Value} (h : bias.toNat ≤ v.toNat) :
    (biasSubtract v bias).toNat = v.toNat - bias.toNat := by
  rw [biasSubtract, BitVec.toNat_sub_of_le (by simpa [BitVec.le_def] using h)]

theorem two_pow_split {n : Nat} (hn : 1 ≤ n) : 2 ^ n = 2 ^ (n - 1) + 2 ^ (n - 1) := by
  conv_lhs => rw [show n = (n - 1) + 1 by omega, Nat.pow_succ]
  omega

/-- `P` is exact and fits in `8n` bits (R123). -/
theorem toNat_packMarker {b : Value} {n : Nat} (h1 : 1 ≤ n) (h8 : n ≤ 8) (hb : b.toNat < 2 ^ (7 * n)) :
    (packMarker b n).toNat = b.toNat * 2 ^ n + 2 ^ (n - 1) ∧ b.toNat * 2 ^ n + 2 ^ (n - 1) < 2 ^ (8 * n) := by
  have hp := two_pow_split h1
  have hpos : 0 < 2 ^ (n - 1) := by positivity
  have h8n : 2 ^ (8 * n) = 2 ^ (7 * n) * 2 ^ n := by rw [← Nat.pow_add]; congr 1; omega
  have hfit : b.toNat * 2 ^ n + 2 ^ n ≤ 2 ^ (8 * n) := by
    rw [h8n, ← Nat.succ_mul]
    exact Nat.mul_le_mul_right _ hb
  have h64 : 2 ^ (8 * n) ≤ 2 ^ 64 := Nat.pow_le_pow_right (by omega) (by omega)
  have hm : 2 ^ (n - 1) % 2 ^ 64 = 2 ^ (n - 1) := Nat.mod_eq_of_lt (Nat.pow_lt_pow_right (by omega) (by omega))
  refine ⟨?_, by omega⟩
  rw [packMarker, BitVec.toNat_or, BitVec.toNat_shiftLeft, BitVec.toNat_shiftLeft, Nat.shiftLeft_eq, Nat.shiftLeft_eq,
    Nat.mod_eq_of_lt (show b.toNat * 2 ^ n < 2 ^ 64 by omega)]
  have h1v : (1#64).toNat = 1 := by decide
  rw [h1v, Nat.one_mul, hm, Nat.mul_comm, Nat.two_pow_add_eq_or_of_lt (by omega)]

theorem lane_encShort (bias : Value) (n : Nat) (v : Value) (tail : Window) (j : Nat) (hj : j < 9) :
    lane (encShort bias n v tail).window j =
      if j < n then byteLE (packMarker (biasSubtract v bias) n) j else lane tail j := by
  rw [encShort, lane_memWrite _ _ _ _ _ hj]
  simp

/-- The defined lanes of a short encoding, as one number (R61, R123). -/
theorem le_encShort {bias v : Value} {n : Nat} (tail : Window) (h1 : 1 ≤ n) (h8 : n ≤ 8) (hle : bias.toNat ≤ v.toNat)
    (hlt : v.toNat - bias.toNat < 2 ^ (7 * n)) :
    le (encShort bias n v tail).window 0 n = (v.toNat - bias.toNat) * 2 ^ n + 2 ^ (n - 1) := by
  have hb := toNat_biasSubtract hle
  obtain ⟨hp, hf⟩ := toNat_packMarker (b := biasSubtract v bias) h1 h8 (by rw [hb]; exact hlt)
  rw [encShort, le_memWrite _ _ _ _ _ (le_refl n) (by omega), hp, Nat.mod_eq_of_lt hf, hb]

/-- The nine lanes of a long encoding (R62, R124). -/
theorem lane_encLong (v : Value) (tail : Window) (j : Nat) (hj : j < 9) :
    lane (encLong v tail).window j = if j = 0 then 0#8 else byteLE v (j - 1) := by
  rw [encLong, lane_memWrite _ _ _ _ _ hj, lane_memWrite _ _ _ _ _ hj]
  by_cases h : j = 0
  · subst h
    simp [byteLE]
  · rw [if_pos (by omega), if_neg h]

theorem memRead64_encLong (v : Value) (tail : Window) : memRead64 (encLong v tail).window 1 = v := by
  apply BitVec.eq_of_toNat_eq
  rw [toNat_memRead64, encLong, le_memWrite _ _ _ _ _ (le_refl 8) (by omega), Nat.mod_eq_of_lt v.isLt]

/-- ENC of a value of one of the bands B0 to B7 ends in a short form. -/
theorem encUnit_short {v : Value} (tail : Window) (h : band v < 8) :
    encUnit v tail = encShort (offsetWord (band v)) (band v + 1) v tail := by
  simp only [encUnit, bandLength, if_pos h]
  rfl

/-- ENC of a value of band B8 ends in the long form. -/
theorem encUnit_long {v : Value} (tail : Window) (h : band v = 8) : encUnit v tail = encLong v tail := by
  simp only [encUnit, bandLength, h, Nat.lt_irrefl, if_false]
  rfl

/-! ## The decoder's stages -/

theorem zerosFrom_eq_iff (x : Value) (i fuel z : Nat) (hz : z < fuel) :
    zerosFrom x i fuel = z ↔ x.getLsbD (i + z) = true ∧ ∀ j, j < z → x.getLsbD (i + j) = false := by
  induction fuel generalizing i z with
  | zero => omega
  | succ fuel ih =>
    rw [zerosFrom]
    cases hx : x.getLsbD i with
    | true =>
      simp only [if_true]
      constructor
      · rintro rfl
        exact ⟨by simpa using hx, by omega⟩
      · rintro ⟨-, h⟩
        by_contra hne
        have := h 0 (by omega)
        simp [hx] at this
    | false =>
      simp only [Bool.false_eq_true, if_false]
      cases z with
      | zero => simp [hx]
      | succ z =>
        rw [Nat.succ_inj, ih (i + 1) z (by omega)]
        constructor
        · rintro ⟨h1, h2⟩
          refine ⟨by simpa [Nat.add_comm, Nat.add_left_comm] using h1, fun j hj => ?_⟩
          cases j with
          | zero => simpa using hx
          | succ j => simpa [Nat.add_comm, Nat.add_left_comm] using h2 j (by omega)
        · rintro ⟨h1, h2⟩
          exact ⟨by simpa [Nat.add_comm, Nat.add_left_comm] using h1,
            fun j hj => by simpa [Nat.add_comm, Nat.add_left_comm] using h2 (j + 1) (by omega)⟩

theorem zerosFrom_le (x : Value) (i fuel : Nat) : zerosFrom x i fuel ≤ fuel := by
  induction fuel generalizing i with
  | zero => exact le_refl 0
  | succ fuel ih =>
    rw [zerosFrom]
    split
    · omega
    · have := ih (i + 1)
      omega

theorem ctz64_le (x : Value) : ctz64 x ≤ 64 := zerosFrom_le x 0 64

/-- `ctz64 x` is the index of the lowest set bit (R11, R152). -/
theorem ctz64_eq_iff {x : Value} {z : Nat} (hz : z < 64) :
    ctz64 x = z ↔ x.getLsbD z = true ∧ ∀ j, j < z → x.getLsbD j = false := by
  simpa [ctz64] using zerosFrom_eq_iff x 0 64 z hz

/-- The unpack is the field `low[8n-1:n]` (R155). -/
theorem toNat_unpack (low : Value) {n : Nat} (h8 : n ≤ 8) :
    (unpack low (left n) (right n)).toNat = low.toNat / 2 ^ n % 2 ^ (7 * n) := by
  have hl : 2 ^ 64 = 2 ^ left n * 2 ^ (8 * n) := by rw [← Nat.pow_add]; congr 1; unfold left; omega
  have hr : 2 ^ right n = 2 ^ left n * 2 ^ n := by rw [← Nat.pow_add, right]
  have h8n : 2 ^ (8 * n) = 2 ^ n * 2 ^ (7 * n) := by rw [← Nat.pow_add]; congr 1; omega
  rw [unpack, BitVec.toNat_ushiftRight, BitVec.toNat_shiftLeft, Nat.shiftLeft_eq, Nat.shiftRight_eq_div_pow, hr,
    Nat.mul_comm low.toNat, hl, Nat.mul_mod_mul_left, Nat.mul_div_mul_left _ _ (by positivity), h8n,
    Nat.mod_mul_right_div_self]

/-- The unbias never carries out of bit 63 (R156). -/
theorem toNat_unbias {u : Value} {n : Nat} (h1 : 1 ≤ n) (h8 : n ≤ 8) (hu : u.toNat < 2 ^ (7 * n)) :
    (unbias u (offsetWord (n - 1))).toNat = u.toNat + offset (n - 1) ∧ u.toNat + offset (n - 1) < offset n := by
  have ho : offset n = offset (n - 1) + 2 ^ (7 * n) := by
    have := offset_succ (n - 1)
    rwa [show n - 1 + 1 = n by omega] at this
  have hm := offset_strictMono.monotone h8
  rw [offset_eight] at hm
  refine ⟨?_, by omega⟩
  rw [unbias, BitVec.toNat_add, toNat_offsetWord _ (by omega), Nat.mod_eq_of_lt (by omega)]

/-- The value of a short form: its payload field plus the offset (R61, R67). -/
theorem toNat_decShort_value (w : Window) {n : Nat} (h1 : 1 ≤ n) (h8 : n ≤ 8) :
    (decShort (left n) (right n) (offsetWord (n - 1)) n w).value.toNat =
      le w 0 n / 2 ^ n + offset (n - 1) := by
  have hu : (unpack (memRead64 w 0) (left n) (right n)).toNat = le w 0 n / 2 ^ n := by
    have h8n : 2 ^ (8 * n) = 2 ^ n * 2 ^ (7 * n) := by rw [← Nat.pow_add]; congr 1; omega
    have hd : 2 ^ (8 * n) ∣ 2 ^ 64 := Nat.pow_dvd_pow 2 (by omega)
    rw [toNat_unpack _ h8, toNat_memRead64, le_eq, le_eq, ← Nat.mod_mul_right_div_self, ← h8n, Nat.mod_mod_of_dvd _ hd]
  have hlt : le w 0 n / 2 ^ n < 2 ^ (7 * n) := by
    rw [← hu, toNat_unpack _ h8]
    exact Nat.mod_lt _ (by positivity)
  rw [decShort, (toNat_unbias h1 h8 (by rw [hu]; exact hlt)).1, hu]

/-- A window with its marker at bit `n-1` is decoded as form `Ln` (R153). -/
theorem decUnit_of_marker {w : Window} {n : Nat} (h1 : 1 ≤ n) (h8 : n ≤ 8) (hm : w.getLsbD (n - 1) = true)
    (hz : ∀ j, j < n - 1 → w.getLsbD j = false) :
    decUnit w = decShort (left n) (right n) (offsetWord (n - 1)) n w := by
  have hc : leadingZeros w = n - 1 := by
    rw [leadingZeros, ctz64_eq_iff (by omega)]
    refine ⟨?_, fun j hj => ?_⟩
    · rw [getLsbD_memRead64]
      simp only [Nat.mul_zero, Nat.zero_add, hm, Bool.and_true, decide_eq_true_eq]
      omega
    · rw [getLsbD_memRead64]
      simp [hz j hj]
  have hn : n - 1 + 1 = n := by omega
  have hle : n - 1 ≤ 7 := by omega
  simp only [decUnit, dispatch, hc, hn, if_pos hle]
  rfl

/-- A window whose lane 0 is zero is decoded as form L9, whatever its other lanes hold (R153). -/
theorem decUnit_of_zero {w : Window} (hz : ∀ j, j < 8 → w.getLsbD j = false) : decUnit w = decLong w := by
  have hc : ¬ leadingZeros w ≤ 7 := by
    intro h
    rw [leadingZeros] at h
    have := ((ctz64_eq_iff (x := memRead64 w 0) (by omega)).1 rfl).1
    rw [getLsbD_memRead64, Nat.mul_zero, Nat.zero_add, hz _ (by omega)] at this
    simp at this
  simp only [decUnit, dispatch, if_neg hc]
  rfl

end Sys2Proof.Machine
end

