-- ==== Sys2Proof/Laws/Units.lean ====
section
/-! SUPPORT. Each unit as a whole, in numbers: which form a window is in, what DEC gives for it, what ENC drives for a
value. -/

namespace Sys2Proof

/-! ## The form of a window, as the remainder of the window as a number -/

/-- Which row a window selects: `Ln` when its lowest `n` bits are `10…0`, L9 when its lowest 8 are zero (R61, R62). -/
theorem decodeWindow_cases (w : Window) :
    (w.toNat % 2 ^ 1 = 2 ^ 0 ∧ decodeWindow w = .decL1 (w.extractLsb' 1 7) (w.extractLsb' 8 64)) ∨
    (w.toNat % 2 ^ 2 = 2 ^ 1 ∧ decodeWindow w = .decL2 (w.extractLsb' 2 14) (w.extractLsb' 16 56)) ∨
    (w.toNat % 2 ^ 3 = 2 ^ 2 ∧ decodeWindow w = .decL3 (w.extractLsb' 3 21) (w.extractLsb' 24 48)) ∨
    (w.toNat % 2 ^ 4 = 2 ^ 3 ∧ decodeWindow w = .decL4 (w.extractLsb' 4 28) (w.extractLsb' 32 40)) ∨
    (w.toNat % 2 ^ 5 = 2 ^ 4 ∧ decodeWindow w = .decL5 (w.extractLsb' 5 35) (w.extractLsb' 40 32)) ∨
    (w.toNat % 2 ^ 6 = 2 ^ 5 ∧ decodeWindow w = .decL6 (w.extractLsb' 6 42) (w.extractLsb' 48 24)) ∨
    (w.toNat % 2 ^ 7 = 2 ^ 6 ∧ decodeWindow w = .decL7 (w.extractLsb' 7 49) (w.extractLsb' 56 16)) ∨
    (w.toNat % 2 ^ 8 = 2 ^ 7 ∧ decodeWindow w = .decL8 (w.extractLsb' 8 56) (w.extractLsb' 64 8)) ∨
    (w.toNat % 2 ^ 8 = 0 ∧ decodeWindow w = .decL9 (w.extractLsb' 8 64)) := by
  rw [decodeWindow]
  simp only [getLsbD_eq_div, decide_eq_true_eq]
  norm_num only []
  split_ifs <;> simp <;> omega

/-- A window whose lowest bits mark it as form `Ln` is that form's window on its own fields (R63). -/
theorem windowLn_fields (w : Window) :
    (w.toNat % 2 ^ 1 = 2 ^ 0 → windowL1 (w.extractLsb' 1 7) (w.extractLsb' 8 64) = w) ∧
    (w.toNat % 2 ^ 2 = 2 ^ 1 → windowL2 (w.extractLsb' 2 14) (w.extractLsb' 16 56) = w) ∧
    (w.toNat % 2 ^ 3 = 2 ^ 2 → windowL3 (w.extractLsb' 3 21) (w.extractLsb' 24 48) = w) ∧
    (w.toNat % 2 ^ 4 = 2 ^ 3 → windowL4 (w.extractLsb' 4 28) (w.extractLsb' 32 40) = w) ∧
    (w.toNat % 2 ^ 5 = 2 ^ 4 → windowL5 (w.extractLsb' 5 35) (w.extractLsb' 40 32) = w) ∧
    (w.toNat % 2 ^ 6 = 2 ^ 5 → windowL6 (w.extractLsb' 6 42) (w.extractLsb' 48 24) = w) ∧
    (w.toNat % 2 ^ 7 = 2 ^ 6 → windowL7 (w.extractLsb' 7 49) (w.extractLsb' 56 16) = w) ∧
    (w.toNat % 2 ^ 8 = 2 ^ 7 → windowL8 (w.extractLsb' 8 56) (w.extractLsb' 64 8) = w) ∧
    (w.toNat % 2 ^ 8 = 0 → windowL9 (w.extractLsb' 8 64) = w) := by
  have hw := w.isLt
  refine ⟨?_, ?_, ?_, ?_, ?_, ?_, ?_, ?_, ?_⟩ <;> intro h <;> apply BitVec.eq_of_toNat_eq <;>
    simp only [toNat_windowL1, toNat_windowL2, toNat_windowL3, toNat_windowL4, toNat_windowL5, toNat_windowL6,
      toNat_windowL7, toNat_windowL8, toNat_windowL9, BitVec.extractLsb'_toNat, Nat.shiftRight_eq_div_pow] <;> omega

/-- Every window is in a form (R69). -/
theorem form_total (w : Window) :
    (∃ n, 1 ≤ n ∧ n ≤ 8 ∧ w.toNat % 2 ^ n = 2 ^ (n - 1)) ∨ w.toNat % 2 ^ 8 = 0 := by
  rcases decodeWindow_cases w with h | h | h | h | h | h | h | h | h
  · exact .inl ⟨1, by omega, by omega, h.1⟩
  · exact .inl ⟨2, by omega, by omega, h.1⟩
  · exact .inl ⟨3, by omega, by omega, h.1⟩
  · exact .inl ⟨4, by omega, by omega, h.1⟩
  · exact .inl ⟨5, by omega, by omega, h.1⟩
  · exact .inl ⟨6, by omega, by omega, h.1⟩
  · exact .inl ⟨7, by omega, by omega, h.1⟩
  · exact .inl ⟨8, by omega, by omega, h.1⟩
  · exact .inr h.1

/-- The bits below the marker and the marker of a window in form `Ln`. -/
theorem getLsbD_of_form {w : Window} {n : Nat} (h : w.toNat % 2 ^ n = 2 ^ (n - 1)) (j : Nat) (hj : j < n) :
    w.getLsbD j = decide (j = n - 1) := by
  have hb := congrArg (fun x => x.testBit j) h
  simp only [Nat.testBit_mod_two_pow, Nat.testBit_two_pow, hj, decide_true, Bool.true_and] at hb
  rw [BitVec.getLsbD, hb]
  simp [eq_comm]

theorem toNat_lane_zero (w : Window) : (lane w 0).toNat = w.toNat % 2 ^ 8 := by
  rw [toNat_lane]
  simp

theorem lane_zero_eq_zero_iff (w : Window) : lane w 0 = 0 ↔ w.toNat % 2 ^ 8 = 0 := by
  rw [← BitVec.toNat_inj, toNat_lane_zero]
  simp

theorem two_pow_eight_mul (n : Nat) : 2 ^ (8 * n) = 2 ^ n * 2 ^ (7 * n) := by
  rw [← Nat.pow_add]
  congr 1
  omega

/-- The `8n`-bit number of a window in form `Ln`: payload, marker, zeros (R61). -/
theorem le_of_form {w : Window} {n : Nat} (h : w.toNat % 2 ^ n = 2 ^ (n - 1)) :
    le w 0 n = le w 0 n / 2 ^ n * 2 ^ n + 2 ^ (n - 1) ∧ le w 0 n / 2 ^ n < 2 ^ (7 * n) := by
  have e : le w 0 n % 2 ^ n = 2 ^ (n - 1) := by
    rw [le_eq, Nat.mul_zero, Nat.pow_zero, Nat.div_one,
      Nat.mod_mod_of_dvd _ (by rw [two_pow_eight_mul]; exact Nat.dvd_mul_right _ _), h]
  constructor
  · have hd := Nat.div_add_mod (le w 0 n) (2 ^ n)
    rw [e, Nat.mul_comm] at hd
    exact hd.symm
  · rw [Nat.div_lt_iff_lt_mul (by positivity), Nat.mul_comm, ← two_pow_eight_mul, le_eq]
    exact Nat.mod_lt _ (by positivity)

/-- A window whose lane 0 is zero is the L9 window of its raw value (R62). -/
theorem eq_windowL9 {w : Window} (h : w.toNat % 2 ^ 8 = 0) : w = windowL9 (memRead64 w 1) := by
  apply BitVec.eq_of_toNat_eq
  rw [toNat_windowL9, toNat_memRead64, le_eq]
  have := w.isLt
  simp
  omega

theorem memRead64_windowL9 (v : Value) : memRead64 (windowL9 v) 1 = v := by
  apply BitVec.eq_of_toNat_eq
  rw [toNat_memRead64, le_eq, toNat_windowL9]
  have := v.isLt
  simp
  omega

namespace Machine

/-! ## What DEC gives -/

theorem decUnit_of_form {w : Window} {n : Nat} (h1 : 1 ≤ n) (h8 : n ≤ 8) (h : w.toNat % 2 ^ n = 2 ^ (n - 1)) :
    decUnit w = decShort (left n) (right n) (offsetWord (n - 1)) n w := by
  apply decUnit_of_marker h1 h8
  · rw [getLsbD_of_form h _ (by omega)]
    simp
  · intro j hj
    rw [getLsbD_of_form h _ (by omega)]
    simp
    omega

theorem decUnit_of_lane_zero {w : Window} (h : w.toNat % 2 ^ 8 = 0) : decUnit w = decLong w := by
  apply decUnit_of_zero
  intro j hj
  have hb := congrArg (fun x => x.testBit j) h
  simp only [Nat.testBit_mod_two_pow] at hb
  simpa [hj, BitVec.getLsbD] using hb

/-- DEC of a window in form `Ln`, in numbers (R67). -/
theorem toNat_decUnit_short {w : Window} {n : Nat} (h1 : 1 ≤ n) (h8 : n ≤ 8) (h : w.toNat % 2 ^ n = 2 ^ (n - 1)) :
    (decUnit w).value.toNat = le w 0 n / 2 ^ n + offset (n - 1) ∧ (decUnit w).len.toNat = n := by
  rw [decUnit_of_form h1 h8 h]
  exact ⟨toNat_decShort_value w h1 h8, toNat_lengthOut (by omega)⟩

/-- DEC of a window in form L9 (R157). -/
theorem decUnit_long {w : Window} (h : w.toNat % 2 ^ 8 = 0) :
    (decUnit w).value = memRead64 w 1 ∧ (decUnit w).len.toNat = 9 := by
  rw [decUnit_of_lane_zero h]
  exact ⟨rfl, toNat_lengthOut (n := 9) (by omega)⟩

/-! ## What ENC drives -/

/-- ENC of a value of one of the bands B0 to B7, in numbers (R68). -/
theorem le_encUnit_short {v : Value} (tail : Window) (h : band v < 8) :
    le (encUnit v tail).window 0 (band v + 1) = (v.toNat - offset (band v)) * 2 ^ (band v + 1) + 2 ^ band v ∧
      v.toNat - offset (band v) < 2 ^ (7 * (band v + 1)) ∧
      ∀ j, band v + 1 ≤ j → j < 9 → lane (encUnit v tail).window j = lane tail j := by
  obtain ⟨b1, b2⟩ := band_bounds v
  rw [bandEnd, if_pos h, offset_succ] at b2
  have ho := toNat_offsetWord (band v) (by omega)
  rw [encUnit_short tail h]
  refine ⟨?_, by omega, ?_⟩
  · rw [le_encShort tail (by omega) (by omega) (by omega) (by omega), ho, Nat.add_sub_cancel]
  · intro j h1 h2
    rw [lane_encShort _ _ _ _ _ h2, if_neg (by omega)]

/-- ENC of a value of band B8 is its L9 window (R62, R124). -/
theorem window_encUnit_long {v : Value} (tail : Window) (h : band v = 8) : (encUnit v tail).window = windowL9 v := by
  rw [encUnit_long tail h]
  have h0 : lane (encLong v tail).window 0 = 0 := by
    rw [lane_encLong _ _ _ (by omega)]
    rfl
  rw [eq_windowL9 ((lane_zero_eq_zero_iff _).1 h0), memRead64_encLong]

theorem bandLength_band (v : Value) : bandLength (band v) = band v + 1 := by
  have := band_le v
  rw [bandLength]
  split <;> omega

theorem toNat_encUnit_len (v : Value) (tail : Window) : (encUnit v tail).len.toNat = band v + 1 := by
  have := band_le v
  rw [encUnit, bandLength_band]
  exact toNat_lengthOut (by omega)

theorem encUnit_be (v : Value) (tail : Window) : (encUnit v tail).be = byteEnables (band v + 1) := by
  rw [encUnit, bandLength_band]

/-- The lanes `[0, n)` do not depend on the draw (R31). -/
theorem lane_encUnit_draw (v : Value) (tail tail' : Window) (i : Nat) (hi : i < band v + 1) :
    lane (encUnit v tail).window i = lane (encUnit v tail').window i := by
  have hb := band_le v
  by_cases h : band v < 8
  · rw [encUnit_short _ h, encUnit_short _ h, lane_encShort _ _ _ _ _ (by omega), lane_encShort _ _ _ _ _ (by omega),
      if_pos hi, if_pos hi]
  · rw [window_encUnit_long _ (by omega), window_encUnit_long _ (by omega)]

end Machine

end Sys2Proof
end

