-- ==== Sys2Proof/Laws/PerInstr.lean ====
section
/-! SUPPORT. The family RowPattern, one lemma for each constructor of Instr: the word that selects an operation fits its
row of spec/opcode_table.json. -/

namespace Sys2Proof.Laws.RowPattern

/-- A window fits a row's `mask` and `match` (spec/30_encoding.md R72). -/
def Fits (w mask match' : Window) : Prop := w &&& mask = match'

/-- A value is in the band its row is selected by (R72, R110). -/
def Selects (v : Value) (k : Nat) (i : Instr) : Prop := i.WellFormed → band v = k

/-- The word of a DEC row fits the row's mask and match; the word of a well-formed ENC row is a value of its band. -/
def Statement (i : Instr) : Prop :=
  match encode i, i with
  | .decWindow w, .decL1 _ _ => Fits w 0x000000000000000001 0x000000000000000001
  | .decWindow w, .decL2 _ _ => Fits w 0x000000000000000003 0x000000000000000002
  | .decWindow w, .decL3 _ _ => Fits w 0x000000000000000007 0x000000000000000004
  | .decWindow w, .decL4 _ _ => Fits w 0x00000000000000000F 0x000000000000000008
  | .decWindow w, .decL5 _ _ => Fits w 0x00000000000000001F 0x000000000000000010
  | .decWindow w, .decL6 _ _ => Fits w 0x00000000000000003F 0x000000000000000020
  | .decWindow w, .decL7 _ _ => Fits w 0x00000000000000007F 0x000000000000000040
  | .decWindow w, .decL8 _ _ => Fits w 0x0000000000000000FF 0x000000000000000080
  | .decWindow w, .decL9 _ => Fits w 0x0000000000000000FF 0x000000000000000000
  | .encValue v, .encB0 u => v = u ∧ Selects v 0 (.encB0 u)
  | .encValue v, .encB1 u => v = u ∧ Selects v 1 (.encB1 u)
  | .encValue v, .encB2 u => v = u ∧ Selects v 2 (.encB2 u)
  | .encValue v, .encB3 u => v = u ∧ Selects v 3 (.encB3 u)
  | .encValue v, .encB4 u => v = u ∧ Selects v 4 (.encB4 u)
  | .encValue v, .encB5 u => v = u ∧ Selects v 5 (.encB5 u)
  | .encValue v, .encB6 u => v = u ∧ Selects v 6 (.encB6 u)
  | .encValue v, .encB7 u => v = u ∧ Selects v 7 (.encB7 u)
  | .encValue v, .encB8 u => v = u ∧ Selects v 8 (.encB8 u)
  | _, _ => False

theorem fits_iff (w : Window) (n m : Nat) (hn : n ≤ 8) (hm : m < 2 ^ 72) :
    Fits w (BitVec.ofNat 72 (2 ^ n - 1)) (BitVec.ofNat 72 m) ↔ w.toNat % 2 ^ n = m := by
  have h2 : 2 ^ n ≤ 2 ^ 8 := Nat.pow_le_pow_right (by omega) hn
  rw [Fits, ← BitVec.toNat_inj, BitVec.toNat_and, BitVec.toNat_ofNat, BitVec.toNat_ofNat,
    Nat.mod_eq_of_lt (show 2 ^ n - 1 < 2 ^ 72 by omega), Nat.mod_eq_of_lt hm, Nat.and_two_pow_sub_one_eq_mod]

theorem decL1 (payload : BitVec 7) (tail : BitVec 64) : Statement (.decL1 payload tail) := by
  refine (fits_iff (windowL1 payload tail) 1 (2 ^ 0) (by omega) (by decide)).2 ?_
  rw [toNat_windowL1]
  omega

theorem decL2 (payload : BitVec 14) (tail : BitVec 56) : Statement (.decL2 payload tail) := by
  refine (fits_iff (windowL2 payload tail) 2 (2 ^ 1) (by omega) (by decide)).2 ?_
  rw [toNat_windowL2]
  omega

theorem decL3 (payload : BitVec 21) (tail : BitVec 48) : Statement (.decL3 payload tail) := by
  refine (fits_iff (windowL3 payload tail) 3 (2 ^ 2) (by omega) (by decide)).2 ?_
  rw [toNat_windowL3]
  omega

theorem decL4 (payload : BitVec 28) (tail : BitVec 40) : Statement (.decL4 payload tail) := by
  refine (fits_iff (windowL4 payload tail) 4 (2 ^ 3) (by omega) (by decide)).2 ?_
  rw [toNat_windowL4]
  omega

theorem decL5 (payload : BitVec 35) (tail : BitVec 32) : Statement (.decL5 payload tail) := by
  refine (fits_iff (windowL5 payload tail) 5 (2 ^ 4) (by omega) (by decide)).2 ?_
  rw [toNat_windowL5]
  omega

theorem decL6 (payload : BitVec 42) (tail : BitVec 24) : Statement (.decL6 payload tail) := by
  refine (fits_iff (windowL6 payload tail) 6 (2 ^ 5) (by omega) (by decide)).2 ?_
  rw [toNat_windowL6]
  omega

theorem decL7 (payload : BitVec 49) (tail : BitVec 16) : Statement (.decL7 payload tail) := by
  refine (fits_iff (windowL7 payload tail) 7 (2 ^ 6) (by omega) (by decide)).2 ?_
  rw [toNat_windowL7]
  omega

theorem decL8 (payload : BitVec 56) (tail : BitVec 8) : Statement (.decL8 payload tail) := by
  refine (fits_iff (windowL8 payload tail) 8 (2 ^ 7) (by omega) (by decide)).2 ?_
  rw [toNat_windowL8]
  omega

theorem decL9 (value : Value) : Statement (.decL9 value) := by
  refine (fits_iff (windowL9 value) 8 0 (by omega) (by decide)).2 ?_
  rw [toNat_windowL9]
  omega

/-- The range check of an ENC row and its band. -/
theorem band_of_inRange {v : Value} {lo hi k : Nat} (hk : k ≤ 8) (hlo : offset k = lo) (hhi : bandEnd k = hi + 1)
    (h : inRange v lo hi = true) : band v = k := by
  simp only [inRange, Bool.and_eq_true, decide_eq_true_eq] at h
  exact band_of_bounds hk (by omega) (by omega)

theorem encB0 (value : Value) : Statement (.encB0 value) :=
  ⟨rfl, band_of_inRange (by omega) (by decide) (by decide)⟩

theorem encB1 (value : Value) : Statement (.encB1 value) :=
  ⟨rfl, band_of_inRange (by omega) (by decide) (by decide)⟩

theorem encB2 (value : Value) : Statement (.encB2 value) :=
  ⟨rfl, band_of_inRange (by omega) (by decide) (by decide)⟩

theorem encB3 (value : Value) : Statement (.encB3 value) :=
  ⟨rfl, band_of_inRange (by omega) (by decide) (by decide)⟩

theorem encB4 (value : Value) : Statement (.encB4 value) :=
  ⟨rfl, band_of_inRange (by omega) (by decide) (by decide)⟩

theorem encB5 (value : Value) : Statement (.encB5 value) :=
  ⟨rfl, band_of_inRange (by omega) (by decide) (by decide)⟩

theorem encB6 (value : Value) : Statement (.encB6 value) :=
  ⟨rfl, band_of_inRange (by omega) (by decide) (by decide)⟩

theorem encB7 (value : Value) : Statement (.encB7 value) :=
  ⟨rfl, band_of_inRange (by omega) (by decide) (by decide)⟩

theorem encB8 (value : Value) : Statement (.encB8 value) :=
  ⟨rfl, band_of_inRange (by omega) (by decide) (by decide)⟩

end Sys2Proof.Laws.RowPattern
end

