-- ==== Sys2Proof/Laws/Step.lean ====
section
/-! SUPPORT. What a step does, by the schedule; what the host's functions give. -/

namespace Sys2Proof.Machine

theorem step_nil {s : State} (h : s.schedule = []) : step s = .next s := by rw [step, advance, fetch, h]

theorem step_cons {s : State} {x : Stimulus} {rest : List Stimulus} (h : s.schedule = x :: rest) :
    step s = present x { s with schedule := rest } := by rw [step, advance, fetch, h]

theorem present_proper {x : Stimulus} (h : x.hazard = none) (s : State) : present x s = exec (decode x.port) s := by
  rw [present, h]

theorem present_hazard {x : Stimulus} {r : Refusal} (h : x.hazard = some r) (s : State) : present x s = .refused r := by
  rw [present, h]

/-- All that a step which answers a next state can have done. -/
theorem step_cases {s t : State} (h : step s = .next t) :
    (s.schedule = [] ∧ t = s) ∨
    ∃ x rest, s.schedule = x :: rest ∧ x.hazard = none ∧ exec (decode x.port) { s with schedule := rest } = .next t := by
  cases hs : s.schedule with
  | nil =>
    rw [step_nil hs] at h
    cases h
    exact .inl ⟨rfl, rfl⟩
  | cons x rest =>
    rw [step_cons hs] at h
    cases hx : x.hazard with
    | some r =>
      rw [present_hazard hx] at h
      cases h
    | none =>
      rw [present_proper hx] at h
      exact .inr ⟨x, rest, rfl, hx, h⟩

/-- One step of a run of the host's interface. -/
theorem run_succ_of_step {M : Host.Core} {k : Nat} {s t : M.State} (h : M.step s = .next t) :
    M.run (k + 1) s = M.run k t := by simp only [Host.Core.run, h]

theorem holdFor_of_lt {elapsed : Nat} (h : elapsed < Config.tPd) : holdFor elapsed = .early := by
  rw [holdFor, if_neg (by omega)]

theorem holdFor_of_le {elapsed : Nat} (h : Config.tPd ≤ elapsed) : holdFor elapsed = .stable := by
  rw [holdFor, if_pos h]

theorem lane_mergeLanes (be : ByteEnables) (new old : Window) (k i : Nat) (hk : k ≤ 9) (hi : i < 9) :
    lane (mergeLanes be new old k) i = if i < k ∧ be.getLsbD i = true then lane new i else lane old i := by
  induction k with
  | zero => simp [mergeLanes]
  | succ k ih =>
    rw [mergeLanes]
    have hlt : i ≠ k → (i < k + 1 ↔ i < k) := by omega
    by_cases hb : be.getLsbD k = true
    · rw [if_pos hb, lane_setLane _ _ _ _ hi, ih (by omega)]
      by_cases e : i = k
      · subst e
        simp [hb]
      · simp [e, hlt e]
    · rw [if_neg hb, ih (by omega)]
      by_cases e : i = k
      · subst e
        simp [hb]
      · simp [hlt e]

theorem lane_frameFrom (pad : Window) (bytes : List Byte) (i j : Nat) (hj : j < 9) :
    lane (frameFrom pad i bytes) j =
      if i ≤ j ∧ j < i + bytes.length then bytes.getD (j - i) 0 else lane pad j := by
  induction bytes generalizing i with
  | nil => simp [frameFrom]
  | cons b rest ih =>
    rw [frameFrom, lane_setLane _ _ _ _ hj, ih]
    by_cases e : j = i
    · subst e
      simp
    · by_cases c : i ≤ j ∧ j < i + (b :: rest).length
      · have c' : i + 1 ≤ j ∧ j < i + 1 + rest.length := by
          simp only [List.length_cons] at c
          omega
        rw [if_neg e, if_pos c, if_pos c', show j - i = (j - (i + 1)) + 1 by omega, List.getD_cons_succ]
      · have c' : ¬ (i + 1 ≤ j ∧ j < i + 1 + rest.length) := by
          simp only [List.length_cons] at c
          omega
        rw [if_neg e, if_neg c, if_neg c']

end Sys2Proof.Machine
end

