-- ==== Sys2Proof/Tests/Slice0.lean ====
section
/-! SUPPORT. Tests. The expected results are the numbers of the spec: the vectors of spec/95_test_vectors.md (E<n>, D<n>,
S<n>), the examples of the rules, and the rows of spec/opcode_table.json. The last part shows, for each statement that has
hypotheses, states and operands that meet them. -/

namespace Sys2Proof.Tests

open Sys2Proof Sys2Proof.Machine Sys2Proof.Claims

/-! ## Helpers -/

/-- A state with something on every port; the next tail draw is number 7. -/
def start : State where
  encValue := 3#64
  encWindow := 0x555555555555555507#72
  encLen := 1#4
  encBe := 1#9
  decWindow := 0x333333333333333307#72
  decValue := 3#64
  decLen := 1#4
  draws := 7
  schedule := []

/-- `enc_len` and `enc_be` after an outcome. -/
def encOut (o : Host.Outcome State Fault Refusal) : Option (Nat × Nat) :=
  match o with
  | .next t => some (t.encLen.toNat, t.encBe.toNat)
  | .fault _ | .refused _ => none

/-- `dec_value` and `dec_len` after an outcome. -/
def decOut (o : Host.Outcome State Fault Refusal) : Option (Nat × Nat) :=
  match o with
  | .next t => some (t.decValue.toNat, t.decLen.toNat)
  | .fault _ | .refused _ => none

/-- The name of a refusal. -/
def refusal (o : Host.Outcome State Fault Refusal) : Option Refusal :=
  match o with
  | .next _ | .fault _ => none
  | .refused r => some r

/-- Lanes `[0, n)` of `enc_window` after an outcome. -/
def encLanes (o : Host.Outcome State Fault Refusal) (n : Nat) : List Byte :=
  match o with
  | .next t => (List.range n).map (lane t.encWindow)
  | .fault _ | .refused _ => []

theorem encLanes_short (bias : Value) (n : Nat) (v : Value) (s : State) (hn : n ≤ 9) :
    encLanes (opEncShort bias n v s) n = (List.range n).map (byteLE (packMarker (biasSubtract v bias) n)) := by
  simp only [opEncShort_eq, encLanes, State.driveEnc_encWindow]
  apply List.map_congr_left
  intro j hj
  rw [List.mem_range] at hj
  rw [lane_encShort _ _ _ _ _ (by omega), if_pos hj]

theorem encLanes_long (v : Value) (s : State) :
    encLanes (opEncLong v s) 9 = 0#8 :: (List.range 8).map (byteLE v) := by
  have h : ∀ j, j < 9 → lane (encLong v (Config.encTail s.draws)).window j = if j = 0 then 0#8 else byteLE v (j - 1) :=
    fun j hj => lane_encLong v _ j hj
  simp only [opEncLong_eq, encLanes, State.driveEnc_encWindow]
  show (List.range 9).map _ = _
  have e : List.range 9 = 0 :: (List.range 8).map (· + 1) := by decide
  rw [e, List.map_cons, List.map_map, h 0 (by omega), if_pos rfl]
  congr 1
  apply List.map_congr_left
  intro j hj
  rw [List.mem_range] at hj
  rw [Function.comp_apply, h _ (by omega), if_neg (by omega), Nat.add_sub_cancel]

/-! ## WellFormed: an ill-formed term for each check, one past each end of the `select` range of its row -/

theorem test_wellFormed_encB0 :
    ¬(Instr.encB0 128).WellFormed ∧
    (Instr.encB0 0).WellFormed ∧
    (Instr.encB0 127).WellFormed := by decide

theorem test_wellFormed_encB1 :
    ¬(Instr.encB1 127).WellFormed ∧
    ¬(Instr.encB1 16512).WellFormed ∧
    (Instr.encB1 128).WellFormed ∧
    (Instr.encB1 16511).WellFormed := by decide

theorem test_wellFormed_encB2 :
    ¬(Instr.encB2 16511).WellFormed ∧
    ¬(Instr.encB2 2113664).WellFormed ∧
    (Instr.encB2 16512).WellFormed ∧
    (Instr.encB2 2113663).WellFormed := by decide

theorem test_wellFormed_encB3 :
    ¬(Instr.encB3 2113663).WellFormed ∧
    ¬(Instr.encB3 270549120).WellFormed ∧
    (Instr.encB3 2113664).WellFormed ∧
    (Instr.encB3 270549119).WellFormed := by decide

theorem test_wellFormed_encB4 :
    ¬(Instr.encB4 270549119).WellFormed ∧
    ¬(Instr.encB4 34630287488).WellFormed ∧
    (Instr.encB4 270549120).WellFormed ∧
    (Instr.encB4 34630287487).WellFormed := by decide

theorem test_wellFormed_encB5 :
    ¬(Instr.encB5 34630287487).WellFormed ∧
    ¬(Instr.encB5 4432676798592).WellFormed ∧
    (Instr.encB5 34630287488).WellFormed ∧
    (Instr.encB5 4432676798591).WellFormed := by decide

theorem test_wellFormed_encB6 :
    ¬(Instr.encB6 4432676798591).WellFormed ∧
    ¬(Instr.encB6 567382630219904).WellFormed ∧
    (Instr.encB6 4432676798592).WellFormed ∧
    (Instr.encB6 567382630219903).WellFormed := by decide

theorem test_wellFormed_encB7 :
    ¬(Instr.encB7 567382630219903).WellFormed ∧
    ¬(Instr.encB7 72624976668147840).WellFormed ∧
    (Instr.encB7 567382630219904).WellFormed ∧
    (Instr.encB7 72624976668147839).WellFormed := by decide

theorem test_wellFormed_encB8 :
    ¬(Instr.encB8 72624976668147839).WellFormed ∧
    (Instr.encB8 72624976668147840).WellFormed ∧
    (Instr.encB8 18446744073709551615).WellFormed := by decide

/-- The fields of a DEC row have the row's widths, so every term is well formed (R69). -/
theorem test_wellFormed_dec : (Instr.decL1 127 0).WellFormed ∧ (Instr.decL9 0).WellFormed := by decide

/-! ## Decoding: a word of each row

The DEC words are the windows of R159 to R167's examples, lane 8 first; the payloads are the biased values of R128 to R135
with the same bytes. -/

theorem test_decode_decL1 : decodeTableWord 72 0x00000000000000000B = some (.decL1 5 0x0000000000000000) := by decide
theorem test_decode_decL2 : decodeTableWord 72 0xFFFFFFFFFFFFFF02B2 = some (.decL2 172 0xFFFFFFFFFFFFFF) := by decide
theorem test_decode_decL3 : decodeTableWord 72 0x121212121212780E04 = some (.decL3 983488 0x121212121212) := by decide
theorem test_decode_decL4 : decodeTableWord 72 0xEEEEEEEEEE73B8C958 = some (.decL4 121343125 0xEEEEEEEEEE) := by decide
theorem test_decode_decL5 : decodeTableWord 72 0x33333333487D747010 = some (.decL5 9729450880 0x33333333) := by decide
theorem test_decode_decL6 : decodeTableWord 72 0x99999938312133E020 = some (.decL6 965369712512 0x999999) := by decide
theorem test_decode_decL7 : decodeTableWord 72 0x88772B75802CFFC040 = some (.decL7 95567323201408 0x8877) := by decide
theorem test_decode_decL8 : decodeTableWord 72 0x42FDFBF7EFDFBF8080 = some (.decL8 71490211407708032 0x42) := by decide
theorem test_decode_decL9 : decodeTableWord 72 0x010204081020408000 = some (.decL9 72624976668147840) := by decide

/-- The `match` word of each DEC row of the table, written out in bits: payload 0 and tail 0. -/
theorem test_decode_match_words :
    decodeTableWord 72 0b1 = some (.decL1 0 0) ∧
    decodeTableWord 72 0b10 = some (.decL2 0 0) ∧
    decodeTableWord 72 0b100 = some (.decL3 0 0) ∧
    decodeTableWord 72 0b1000 = some (.decL4 0 0) ∧
    decodeTableWord 72 0b10000 = some (.decL5 0 0) ∧
    decodeTableWord 72 0b100000 = some (.decL6 0 0) ∧
    decodeTableWord 72 0b1000000 = some (.decL7 0 0) ∧
    decodeTableWord 72 0b10000000 = some (.decL8 0 0) ∧
    decodeTableWord 72 0b00000000 = some (.decL9 0) := by decide

/-- R72: the words of the ENC rows describe windows the encoder produces, so as an input they are windows
(notes/assumptions/6). -/
theorem test_decode_enc_row_word : decodeTableWord 72 0x000000000000000080 = some (.decL8 0 0) := by decide

/-- A value selects the row of its band: the examples of R128 to R136. -/
theorem test_decode_enc :
    decode (.encValue 5) = .encB0 5 ∧
    decode (.encValue 300) = .encB1 300 ∧
    decode (.encValue 1000000) = .encB2 1000000 ∧
    decode (.encValue 123456789) = .encB3 123456789 ∧
    decode (.encValue 10000000000) = .encB4 10000000000 ∧
    decode (.encValue 1000000000000) = .encB5 1000000000000 ∧
    decode (.encValue 100000000000000) = .encB6 100000000000000 ∧
    decode (.encValue 72057594037927936) = .encB7 72057594037927936 ∧
    decode (.encValue 72624976668147840) = .encB8 72624976668147840 := by decide

/-- The bands at every boundary (spec/95_test_vectors.md section 2). -/
theorem test_band_boundaries :
    [0, 127, 128, 16511, 16512, 2113663, 2113664, 270549119, 270549120, 34630287487, 34630287488, 4432676798591, 4432676798592, 567382630219903, 567382630219904, 72624976668147839, 72624976668147840, 18446744073709551615].map band
      = [0, 0, 1, 1, 2, 2, 3, 3, 4, 4, 5, 5, 6, 6, 7, 7, 8, 8] := by decide

/-- Encoding writes the fields where R63 puts them: the examples above, the other way. -/
theorem test_encode_decL3 :
    encode (.decL3 983488 0x121212121212) = .decWindow 0x121212121212780E04 := by decide

theorem test_encode_encB1 : encode (.encB1 300) = .encValue 300 := by decide

/-- A buffer that is not exactly 9 bytes is no window (R26, R201). -/
theorem test_decodeBytes_rejects : (decodeBytes (List.replicate 8 0x01) = .error .shortWindow) ∧
    (decodeBytes (List.replicate 10 0x01) = .error .longWindow) ∧ (decodeTableWord 80 1 = none) := by
  refine ⟨by rfl, by rfl, by rfl⟩

/-! ## The Range Partition (R101, R108) -/

theorem test_offsets : (List.range 9).map offset = [0x0, 0x80, 0x4080, 0x204080, 0x10204080, 0x810204080, 0x40810204080,
    0x2040810204080, 0x0102040810204080] := by decide

theorem test_shift_pair : (List.range' 1 8).map (fun n => (left n, right n)) =
    [(56, 57), (48, 50), (40, 43), (32, 36), (24, 29), (16, 22), (8, 15), (0, 8)] := by decide

/-! ## ENC: the defined lanes, then the length and the enables (spec/95_test_vectors.md section 3) -/

/-- E3 -/
theorem test_encB0 : encLanes (exec (.encB0 127) start) 1 = [0xFF] :=
  (encLanes_short 0#64 1 127#64 start (by decide)).trans (by decide)

theorem test_encB0_out : encOut (exec (.encB0 127) start) = some (1, 0x001) := by decide

/-- E28 -/
theorem test_encB1 : encLanes (exec (.encB1 16384) start) 2 = [0x02, 0xFE] :=
  (encLanes_short 128#64 2 16384#64 start (by decide)).trans (by decide)

theorem test_encB1_out : encOut (exec (.encB1 16384) start) = some (2, 0x003) := by decide

/-- R130 -/
theorem test_encB2 : encLanes (exec (.encB2 1000000) start) 3 = [0x04, 0x0E, 0x78] :=
  (encLanes_short 16512#64 3 1000000#64 start (by decide)).trans (by decide)

theorem test_encB2_out : encOut (exec (.encB2 1000000) start) = some (3, 0x007) := by decide

/-- R131 -/
theorem test_encB3 : encLanes (exec (.encB3 123456789) start) 4 = [0x58, 0xC9, 0xB8, 0x73] :=
  (encLanes_short 2113664#64 4 123456789#64 start (by decide)).trans (by decide)

theorem test_encB3_out : encOut (exec (.encB3 123456789) start) = some (4, 0x00F) := by decide

/-- R132 -/
theorem test_encB4 : encLanes (exec (.encB4 4294967296) start) 5 = [0x10, 0xF0, 0xF7, 0xFB, 0x1D] :=
  (encLanes_short 270549120#64 5 4294967296#64 start (by decide)).trans (by decide)

theorem test_encB4_out : encOut (exec (.encB4 4294967296) start) = some (5, 0x01F) := by decide

/-- R133 -/
theorem test_encB5 : encLanes (exec (.encB5 1000000000000) start) 6 = [0x20, 0xE0, 0x33, 0x21, 0x31, 0x38] :=
  (encLanes_short 34630287488#64 6 1000000000000#64 start (by decide)).trans (by decide)

theorem test_encB5_out : encOut (exec (.encB5 1000000000000) start) = some (6, 0x03F) := by decide

/-- R134 -/
theorem test_encB6 : encLanes (exec (.encB6 100000000000000) start) 7 = [0x40, 0xC0, 0xFF, 0x2C, 0x80, 0x75, 0x2B] :=
  (encLanes_short 4432676798592#64 7 100000000000000#64 start (by decide)).trans (by decide)

theorem test_encB6_out : encOut (exec (.encB6 100000000000000) start) = some (7, 0x07F) := by decide

/-- E29 -/
theorem test_encB7 : encLanes (exec (.encB7 72057594037927936) start) 8 = [0x80, 0x80, 0xBF, 0xDF, 0xEF, 0xF7, 0xFB, 0xFD] :=
  (encLanes_short 567382630219904#64 8 72057594037927936#64 start (by decide)).trans (by decide)

theorem test_encB7_out : encOut (exec (.encB7 72057594037927936) start) = some (8, 0x0FF) := by decide

/-- E26 -/
theorem test_encB8 : encLanes (exec (.encB8 72624976668147841) start) 9 = [0x00, 0x81, 0x40, 0x20, 0x10, 0x08, 0x04, 0x02, 0x01] :=
  (encLanes_long 72624976668147841#64 start).trans (by decide)

theorem test_encB8_out : encOut (exec (.encB8 72624976668147841) start) = some (9, 0x1FF) := by decide

/-! ## DEC (spec/95_test_vectors.md section 4) -/

/-- D3 -/
theorem test_decL1 : decOut (exec (decode (.decWindow (windowOfBytes [0xFF, 0xA5, 0xA5, 0xA5, 0xA5, 0xA5, 0xA5, 0xA5, 0xA5]))) start) = some (127, 1) := by decide

/-- D6 -/
theorem test_decL2 : decOut (exec (decode (.decWindow (windowOfBytes [0xFE, 0xFF, 0xA5, 0xA5, 0xA5, 0xA5, 0xA5, 0xA5, 0xA5]))) start) = some (16511, 2) := by decide

/-- D9 -/
theorem test_decL3 : decOut (exec (decode (.decWindow (windowOfBytes [0xFC, 0xFF, 0xFF, 0xA5, 0xA5, 0xA5, 0xA5, 0xA5, 0xA5]))) start) = some (2113663, 3) := by decide

/-- D12 -/
theorem test_decL4 : decOut (exec (decode (.decWindow (windowOfBytes [0xF8, 0xFF, 0xFF, 0xFF, 0xA5, 0xA5, 0xA5, 0xA5, 0xA5]))) start) = some (270549119, 4) := by decide

/-- D15 -/
theorem test_decL5 : decOut (exec (decode (.decWindow (windowOfBytes [0xF0, 0xFF, 0xFF, 0xFF, 0xFF, 0xA5, 0xA5, 0xA5, 0xA5]))) start) = some (34630287487, 5) := by decide

/-- D18 -/
theorem test_decL6 : decOut (exec (decode (.decWindow (windowOfBytes [0xE0, 0xFF, 0xFF, 0xFF, 0xFF, 0xFF, 0xA5, 0xA5, 0xA5]))) start) = some (4432676798591, 6) := by decide

/-- D21 -/
theorem test_decL7 : decOut (exec (decode (.decWindow (windowOfBytes [0xC0, 0xFF, 0xFF, 0xFF, 0xFF, 0xFF, 0xFF, 0xA5, 0xA5]))) start) = some (567382630219903, 7) := by decide

/-- D24 -/
theorem test_decL8 : decOut (exec (decode (.decWindow (windowOfBytes [0x80, 0xFF, 0xFF, 0xFF, 0xFF, 0xFF, 0xFF, 0xFF, 0xA5]))) start) = some (72624976668147839, 8) := by decide

/-- D30 -/
theorem test_decL9 : decOut (exec (decode (.decWindow (windowOfBytes [0x00, 0x7F, 0x40, 0x20, 0x10, 0x08, 0x04, 0x02, 0x01]))) start) = some (72624976668147839, 9) := by decide

/-- D27: `low = 0`, lane 8 = 0x01. -/
theorem test_decL9_lane8 : decOut (exec (.decL9 0x0100000000000000) start) = some (72057594037927936, 9) := by decide

/-- D33: with the printed, rejected shift this would be 131. -/
theorem test_decL2_shift : decOut (exec (.decL2 1 0) start) = some (129, 2) := by decide

/-! ## One step -/

/-- From reset nothing is presented, and a step leaves the state. -/
theorem test_step_idle : step State.reset = .next State.reset := by rfl

/-- S5, presented as a table word right after reset. -/
theorem test_step_fetchWord :
    decOut (step (State.reset.withFetchWord 72 0xFFFFFFFFFFFFFFFF00)) = some (18446744073709551615, 9) := by decide

/-- S2b: 128 presented to the encoder. -/
theorem test_step_encode : encOut (step { start with schedule := [.encode 128 .stable] }) = some (2, 0b000000011) := by decide

theorem test_step_race : refusal (step { start with schedule := [.decode 1 .stable true] }) = some .bufferRace := by decide
theorem test_step_early : refusal (step { start with schedule := [.encode 1 .early] }) = some .inputNotStable := by decide
theorem test_step_undriven : refusal (step { start with schedule := [.decode 1 .undriven false] }) = some .inputUndriven := by
  decide

/-! ## The host's buffers -/

/-- P3's first write: ENC 300 into a buffer of 0xCC keeps the bytes past the encoding. -/
theorem test_writeThrough : bytesOfWindow (writeThrough 0x003 0xEEEEEEEEEEEEEE02B2 0xCCCCCCCCCCCCCCCCCC)
    = [0xB2, 0x02, 0xCC, 0xCC, 0xCC, 0xCC, 0xCC, 0xCC, 0xCC] := by decide

/-- P2's last window: one byte left, the lanes past the end are the pad. -/
theorem test_frameWindow : bytesOfWindow (frameWindow 0xEEEEEEEEEEEEEEEEEE [0x01])
    = [0x01, 0xEE, 0xEE, 0xEE, 0xEE, 0xEE, 0xEE, 0xEE, 0xEE] := by decide

/-! ## The reference datapaths (R141, R173) on E30 and R166's example -/

theorem test_encDatapath : encDatapath 300 0xEE = ⟨0xEE00000000000002B2, 2, 0x003⟩ := by decide

theorem test_decDatapath : decDatapath 0x42FDFBF7EFDFBF8080 = ⟨72057594037927936, 8⟩ := by decide

/-! ## Witnesses: what meets the hypotheses of each statement, at the ends of their ranges -/

/-- A state whose outputs are the functions of its inputs, and which has two proper stimuli to come. -/
def coherent : State where
  encValue := 5#64
  encWindow := 0xA5A5A5A5A5A5A5A50B#72
  encLen := 1#4
  encBe := 1#9
  decWindow := 0x000000000000000500#72
  decValue := 5#64
  decLen := 9#4
  draws := 3
  schedule := [.encode 300 .stable, .decode 0xFFFFFFFFFFFFFF02B2 .stable false]

/-- StepKeepsCombinational, LengthsStayInRange: P4's two operations are on the ports. -/
theorem test_witness_combinational : coherent.Combinational :=
  ⟨⟨0xA5A5A5A5A5A5A5A500#72, by decide⟩, by unfold State.DecCoherent; decide⟩

/-- StepKeepsCombinational, LengthsStayInRange, StepDrivesOneUnit: a step of that state gives a next state. -/
theorem test_witness_step_next : ∃ t, step coherent = .next t := ⟨_, rfl⟩

/-- StepDrivesOneUnit: nothing presented, and a DEC operation. -/
theorem test_witness_step_next' : (∃ t, step start = .next t) ∧
    ∃ t, step { start with schedule := [.decode 1 .stable false] } = .next t := ⟨⟨_, rfl⟩, ⟨_, rfl⟩⟩

/-- ProperRunsNeverStop. -/
theorem test_witness_properSchedule : coherent.ProperSchedule ∧ start.ProperSchedule := by
  constructor
  · intro x hx
    simp only [coherent, List.mem_cons, List.not_mem_nil, or_false] at hx
    rcases hx with rfl | rfl <;> rfl
  · intro x hx
    cases hx

/-- StepRunsThePresentedOperation: both clauses. -/
theorem test_witness_proper : coherent.schedule = .encode 300 .stable :: coherent.schedule.tail ∧
    (Stimulus.encode 300 .stable).proper ∧ start.schedule = [] := ⟨rfl, rfl, rfl⟩

/-- HazardsAreRefused: each clause. -/
theorem test_witness_hazards :
    (∀ x : Stimulus, ∃ (s : State) (rest : List Stimulus), s.schedule = x :: rest) ∧ Config.tPd ≤ Config.tPd ∧
    (∀ elapsed, elapsed = Config.tPd → holdFor elapsed = .stable) :=
  ⟨fun x => ⟨{ start with schedule := [x] }, [], rfl⟩, le_refl _, fun _ h => by rw [h, holdFor, if_pos (le_refl _)]⟩

/-- FetchWordRunsNext: both ends. -/
theorem test_witness_nbits : (0 ≤ 72) ∧ (72 ≤ 72) := by decide

/-- EncB0: both ends of the range. -/
theorem test_witness_encB0 : 0 ≤ (0#64).toNat ∧ (127#64).toNat ≤ 127 := by decide

/-- EncB1: both ends of the range. -/
theorem test_witness_encB1 : 128 ≤ (128#64).toNat ∧ (16511#64).toNat ≤ 16511 := by decide

/-- EncB2: both ends of the range. -/
theorem test_witness_encB2 : 16512 ≤ (16512#64).toNat ∧ (2113663#64).toNat ≤ 2113663 := by decide

/-- EncB3: both ends of the range. -/
theorem test_witness_encB3 : 2113664 ≤ (2113664#64).toNat ∧ (270549119#64).toNat ≤ 270549119 := by decide

/-- EncB4: both ends of the range. -/
theorem test_witness_encB4 : 270549120 ≤ (270549120#64).toNat ∧ (34630287487#64).toNat ≤ 34630287487 := by decide

/-- EncB5: both ends of the range. -/
theorem test_witness_encB5 : 34630287488 ≤ (34630287488#64).toNat ∧ (4432676798591#64).toNat ≤ 4432676798591 := by decide

/-- EncB6: both ends of the range. -/
theorem test_witness_encB6 : 4432676798592 ≤ (4432676798592#64).toNat ∧ (567382630219903#64).toNat ≤ 567382630219903 := by decide

/-- EncB7: both ends of the range. -/
theorem test_witness_encB7 : 567382630219904 ≤ (567382630219904#64).toNat ∧ (72624976668147839#64).toNat ≤ 72624976668147839 ∧
    2 ^ 55 ≤ (72624976668147839#64).toNat - 567382630219904 := by decide

/-- EncB8: both ends of the range. -/
theorem test_witness_encB8 : 72624976668147840 ≤ (72624976668147840#64).toNat ∧ 72624976668147840 ≤ (18446744073709551615#64).toNat := by decide

/-- DecL1 to DecL9: a window starts with any bytes the rules give. -/
theorem test_witness_start : (∀ j, j < 2 → lane (windowOfBytes [0xB2, 0x02]) j = [0xB2, 0x02].getD j 0) ∧
    (∀ j, j < 9 → lane (windowOfBytes [0x00, 0x7F, 0x40, 0x20, 0x10, 0x08, 0x04, 0x02, 0x01]) j =
      [0x00, 0x7F, 0x40, 0x20, 0x10, 0x08, 0x04, 0x02, 0x01].getD j 0) := by decide

/-- DecL9: `low = 0` with lane 8 not zero, and the ends of the range of `z`. -/
theorem test_witness_decL9 : memRead64 (windowL9 0x0100000000000000) 0 = 0 ∧ ctz64 (memRead64 (windowL9 1) 0) = 8 ∧
    ctz64 (memRead64 (windowL9 0) 0) = 64 := by decide

/-- DecodeOfEncodeIsIdentity, NoOperationRaisesAnException: a well-formed term of each kind. -/
theorem test_witness_wellFormed : (Instr.encB8 18446744073709551615).WellFormed ∧ (Instr.decL8 0 0).WellFormed ∧
    formOf (.encB8 18446744073709551615) = none ∧ bandOf (.decL8 0 0) = none := by decide

/-- FormsPartitionTheWindows, LengthFollowsFromLaneZero, TwoViewsShareTheirLanes, CanonicalReencoding: forms L1, L8 and
L9, and lanes whose lowest set bit is 0 and 7. -/
theorem test_witness_forms : InForm 0xFF 1 ∧ InForm 0x80 8 ∧ InForm 0x0500 9 ∧ lane 0x0500 0 = 0 ∧
    (lane 0xFF 0).getLsbD 0 = true ∧ (lane 0x80 0).getLsbD 7 = true ∧ (∀ j, j < 7 → (lane 0x80 0).getLsbD j = false) := by
  unfold InForm
  decide

/-- WriteThenReadLittleEndian: the whole of lanes 1 to 8, and nothing. -/
theorem test_witness_memWrite : (8 ≤ 8 ∧ 1 + 8 ≤ 9) ∧ (0 ≤ 8 ∧ 9 + 0 ≤ 9) ∧ (0 < 9 ∧ 0 < 1) := by decide

/-- EveryPayloadIsOneValue, PackLosesNoPayloadBit, UnpackSelectsThePayload, UnbiasNeverCarries: the ends of `n` with the
largest payload. -/
theorem test_witness_payload : (0 < 8 ∧ 127 < 2 ^ (7 * (0 + 1))) ∧ (7 < 8 ∧ 2 ^ 56 - 1 < 2 ^ (7 * (7 + 1))) ∧
    (127#64).toNat < 2 ^ (7 * 1) ∧ (0xFFFFFFFFFFFFFF#64).toNat < 2 ^ (7 * 8) := by decide

/-- BiasNeverBorrows, EncoderProducesItsForm: a value below B8 and one in it. -/
theorem test_witness_band : band 72624976668147839 < 8 ∧ band 72624976668147840 = 8 := by decide

/-- EncodingIsMinimalAndMonotonic: `n = 1` and `n = 9` with a value of their bands, and two ordered values. -/
theorem test_witness_minimal : (offset 0 ≤ (127#64).toNat ∧ (127#64).toNat < bandEnd 0) ∧
    (offset 8 ≤ (18446744073709551615#64).toNat ∧ (18446744073709551615#64).toNat < bandEnd 8) ∧
    (127#64).toNat ≤ (128#64).toNat := by decide

/-- BandBoundariesAreExact, RangePartitionValues: both ends of `k`. -/
theorem test_witness_boundaries : (1 ≤ 1 ∧ 1 ≤ 8) ∧ (1 ≤ 8 ∧ 8 ≤ 8) := by decide

/-- TailLanesDoNotMatter: D24 and D34 differ in lane 8 only and have length 8; S4 has length 9. -/
theorem test_witness_tail : (decUnit 0xA5FFFFFFFFFFFFFF80).len.toNat ≤ 8 ∧
    (∀ i, i < 8 → lane 0x00FFFFFFFFFFFFFF80 i = lane 0xA5FFFFFFFFFFFFFF80 i) ∧
    (decUnit 0x000000000000000000).len.toNat = 9 := by decide

/-- SupernormalFormsAreAccepted, EncodingsOfAValue, CanonicalReencoding: D28 is supernormal, S3's window is not, and the
encoder uses length 9 for `Offset[8]`. -/
theorem test_witness_supernormal : lane 0x0500 0 = 0 ∧ (decUnit 0x0500).value.toNat < offset 8 ∧
    (decUnit 0x010204081020408000).value.toNat = offset 8 ∧ (encUnit 72624976668147840 0).len.toNat = 9 := by decide

/-- EncoderDatapathConforms: the ends of the thermometer code, with a comparator that is on. -/
theorem test_witness_comparator : (1 ≤ 1 ∧ 1 ≤ 8 ∧ 8 ≤ 8) ∧ comparator 72624976668147840 8 = true := by decide

/-- ByteEnablesPreserveTheBuffer: the first lane, and the last. -/
theorem test_witness_lanes : (0 < 9) ∧ (8 < 9) := by decide

end Sys2Proof.Tests
end

section
/-! What an operation does to the state, whichever row its word selects: ENC drives the encoder's ports with `encUnit`
(spec/41_encoder.md R120), DEC the decoder's ports with `decUnit` (spec/42_decoder.md R150). -/

namespace Sys2Proof.Machine

/-- DEC with the constants of a form `Ln` drives what DEC drives for a window in that form. -/
theorem opDecShort_eq_decUnit {w w' : Window} {n l r : Nat} {bias : Value} (hw : w' = w) (h1 : 1 ≤ n) (h8 : n ≤ 8)
    (h : w.toNat % 2 ^ n = 2 ^ (n - 1)) (hl : left n = l) (hr : right n = r) (hb : offsetWord (n - 1) = bias)
    (s : State) : opDecShort l r bias n w' s = .next (s.driveDec w (decUnit w)) := by
  subst hw hl hr hb
  rw [opDecShort, decUnit_of_form h1 h8 h]

theorem opDecLong_eq_decUnit {w w' : Window} (hw : w' = w) (h : w.toNat % 2 ^ 8 = 0) (s : State) :
    opDecLong w' s = .next (s.driveDec w (decUnit w)) := by
  subst hw
  rw [opDecLong, decUnit_of_lane_zero h]

/-- A DEC operation completes and drives the decoder's ports, nothing else. -/
theorem exec_decode_decWindow (w : Window) (s : State) :
    exec (decode (.decWindow w)) s = .next (s.driveDec w (decUnit w)) := by
  obtain ⟨f1, f2, f3, f4, f5, f6, f7, f8, f9⟩ := windowLn_fields w
  rw [decode]
  rcases decodeWindow_cases w with ⟨h, e⟩ | ⟨h, e⟩ | ⟨h, e⟩ | ⟨h, e⟩ | ⟨h, e⟩ | ⟨h, e⟩ | ⟨h, e⟩ | ⟨h, e⟩ | ⟨h, e⟩ <;> rw [e]
  · exact opDecShort_eq_decUnit (f1 h) (by omega) (by omega) h rfl rfl rfl s
  · exact opDecShort_eq_decUnit (f2 h) (by omega) (by omega) h rfl rfl rfl s
  · exact opDecShort_eq_decUnit (f3 h) (by omega) (by omega) h rfl rfl rfl s
  · exact opDecShort_eq_decUnit (f4 h) (by omega) (by omega) h rfl rfl rfl s
  · exact opDecShort_eq_decUnit (f5 h) (by omega) (by omega) h rfl rfl rfl s
  · exact opDecShort_eq_decUnit (f6 h) (by omega) (by omega) h rfl rfl rfl s
  · exact opDecShort_eq_decUnit (f7 h) (by omega) (by omega) h rfl rfl rfl s
  · exact opDecShort_eq_decUnit (f8 h) (by omega) (by omega) h rfl rfl rfl s
  · exact opDecLong_eq_decUnit (f9 h) h s

/-- ENC with the constants of a band below B8 drives what ENC drives for a value of that band. -/
theorem opEncShort_eq_encUnit {v bias : Value} {k : Nat} (hk : band v = k) (h8 : k < 8) (hb : offsetWord k = bias)
    (s : State) : opEncShort bias (k + 1) v s = .next (s.driveEnc v (encUnit v s.tailDraw)) := by
  subst hk hb
  rw [opEncShort, encUnit_short _ h8]

theorem opEncLong_eq_encUnit {v : Value} (hk : band v = 8) (s : State) :
    opEncLong v s = .next (s.driveEnc v (encUnit v s.tailDraw)) := by
  rw [opEncLong, encUnit_long _ hk]

/-- An ENC operation completes and drives the encoder's ports, nothing else. -/
theorem exec_decode_encValue (v : Value) (s : State) :
    exec (decode (.encValue v)) s = .next (s.driveEnc v (encUnit v s.tailDraw)) := by
  rw [decode, decodeValue]
  obtain hlt | h8 := Nat.lt_or_eq_of_le (band_le v)
  · interval_cases hk : band v <;> exact opEncShort_eq_encUnit hk (by omega) rfl s
  · rw [h8]
    exact opEncLong_eq_encUnit h8 s

@[simp] theorem State.driveDec_tailDraw (s : State) (w : Window) (d : DecOut) :
    (s.driveDec w d).tailDraw = s.tailDraw := rfl

/-- The two units have no port in common (R1). -/
theorem State.driveEnc_driveDec_comm (s : State) (v : Value) (o : EncOut) (w : Window) (d : DecOut) :
    (s.driveEnc v o).driveDec w d = (s.driveDec w d).driveEnc v o := rfl

end Sys2Proof.Machine
end

section
/-! The obligations of spec/00_scope.md: little-endian memory access (R10, R11), and two units that share no state (R1). -/

namespace Sys2Proof

open Sys2Proof.Machine

/-- Settles O25: the lanes of the range are those of `bytesLE(v, n)`, the others are the old ones. -/
theorem writeThenReadLittleEndian : Obligations.WriteThenReadLittleEndian := by
  intro w a n v _ ha
  refine ⟨le_memWrite w a n n v le_rfl ha, fun j hj => ?_, fun j hj hout => ?_⟩
  · rw [lane_memWrite w a n v _ (by omega), if_pos (by omega), Nat.add_sub_cancel_left]
  · rw [lane_memWrite w a n v j hj, if_neg (by omega)]

/-- Settles O55, by what a step can do (`step_cases`) and which port the stimulus drives. -/
theorem stepDrivesOneUnit : Obligations.StepDrivesOneUnit := by
  intro s t h
  obtain ⟨hs, ht⟩ | ⟨x, rest, hs, -, hx⟩ := step_cases h
  · exact .inl ⟨hs, ht⟩
  · cases x with
    | encode v hold =>
      rw [Stimulus.port, exec_decode_encValue] at hx
      cases hx
      exact .inr (.inl ⟨v, hold, hs, rfl, rfl, rfl, rfl, rfl⟩)
    | decode w hold overlap =>
      rw [Stimulus.port, exec_decode_decWindow] at hx
      cases hx
      exact .inr (.inr ⟨w, hold, overlap, hs, rfl, rfl, rfl, rfl, rfl, rfl⟩)

/-- Settles O56: both orders drive the same outputs, since DEC uses no tail draw. -/
theorem unitsCommute : Obligations.UnitsCommute := by
  intro v w s
  refine ⟨_, _, _, exec_decode_encValue v s, exec_decode_decWindow w _, exec_decode_decWindow w s, ?_⟩
  rw [exec_decode_encValue, State.driveDec_tailDraw, State.driveEnc_driveDec_comm]

end Sys2Proof
end

section
/-! The facts of spec/10_state.md that its obligations turn on: the outputs as functions of the inputs (R20, R25, R32), the
operation a word selects (R22), the window of a table word. -/

namespace Sys2Proof

/-! ## The operation a word selects -/

/-- A value of a band is in the range of that band's row. -/
theorem inRange_of_band {v : Value} {lo hi k : Nat} (hk : band v = k) (hlo : offset k = lo) (hhi : bandEnd k = hi + 1) :
    inRange v lo hi = true := by
  obtain ⟨b1, b2⟩ := band_bounds v
  rw [hk] at b1 b2
  simp only [inRange, Bool.and_eq_true, decide_eq_true_eq]
  omega

theorem decodeWindow_wellFormed (w : Window) : (decodeWindow w).WellFormed := by
  rcases decodeWindow_cases w with ⟨-, e⟩ | ⟨-, e⟩ | ⟨-, e⟩ | ⟨-, e⟩ | ⟨-, e⟩ | ⟨-, e⟩ | ⟨-, e⟩ | ⟨-, e⟩ | ⟨-, e⟩ <;>
    rw [e] <;> rfl

theorem decodeValue_wellFormed (v : Value) : (decodeValue v).WellFormed := by
  rw [decodeValue]
  have h8 := band_le v
  interval_cases hk : band v <;> exact inRange_of_band hk (by decide) (by decide)

/-- No word on an input port is illegal (R69, R104). -/
theorem decode_wellFormed (x : PortWord) : (decode x).WellFormed := by
  cases x with
  | encValue v => exact decodeValue_wellFormed v
  | decWindow w => exact decodeWindow_wellFormed w

/-! ## The window of a table word -/

theorem decodeBytes_bytesOfWindow (w : Window) : decodeBytes (bytesOfWindow w) = .ok (decodeWindow w) := by
  simp [decodeBytes]

/-- A table word of at most 72 bits selects what its window on `dec_window` selects (R72). -/
theorem decodeTableWord_eq {nbits : Nat} (h : nbits ≤ 72) (w : Nat) :
    decodeTableWord nbits w = some (decode (.decWindow (tableWindow nbits w))) := by
  rw [decodeTableWord, if_pos h, decodeBytes_bytesOfWindow]
  rfl

/-- Replacing lane 0 keeps the bits `[71:8]`. -/
theorem setLane_zero (w : Window) (b : Byte) : setLane w 0 b = w.extractLsb' 8 64 ++ b := by
  apply BitVec.eq_of_getLsbD_eq
  intro j hj
  rw [getLsbD_setLane _ _ _ _ hj, BitVec.getLsbD_append]
  by_cases h8 : j < 8
  · rw [if_pos (by omega), if_pos h8, Nat.mod_eq_of_lt h8]
  · rw [if_neg (by omega), if_neg h8, BitVec.getLsbD_extractLsb', show 8 + (j - 8) = j by omega,
      decide_eq_true (by omega), Bool.true_and]

namespace Machine

@[simp] theorem State.driveDec_driveDec (s : State) (w : Window) (d : DecOut) :
    (s.driveDec w d).driveDec w d = s.driveDec w d := rfl

/-! ## Outputs that are the functions of the inputs -/

/-- An ENC operation sets the encoder's outputs to the function of its input, and leaves the decoder as it was. -/
theorem State.Combinational.driveEnc {s : State} (h : s.Combinational) (v : Value) (tail : Window) :
    (s.driveEnc v (encUnit v tail)).Combinational := ⟨⟨tail, rfl⟩, h.dec⟩

/-- A DEC operation sets the decoder's outputs to the function of its input, and leaves the encoder as it was. -/
theorem State.Combinational.driveDec {s : State} (h : s.Combinational) (w : Window) :
    (s.driveDec w (decUnit w)).Combinational := ⟨h.enc, rfl⟩

/-- What the environment presents next is no port. -/
theorem State.Combinational.withSchedule {s : State} (h : s.Combinational) (rest : List Stimulus) :
    ({ s with schedule := rest } : State).Combinational := ⟨h.enc, h.dec⟩

/-- Every operation that a word selects keeps both units combinational. -/
theorem exec_decode_keeps_combinational {s t : State} {x : PortWord} (h : s.Combinational)
    (ht : exec (decode x) s = .next t) : t.Combinational := by
  cases x with
  | encValue v =>
    rw [exec_decode_encValue] at ht
    cases ht
    exact h.driveEnc v _
  | decWindow w =>
    rw [exec_decode_decWindow] at ht
    cases ht
    exact h.driveDec w

/-- `dec_len` lies in `[1, 9]` for every window (R158). -/
theorem toNat_decUnit_len_mem (w : Window) : 1 ≤ (decUnit w).len.toNat ∧ (decUnit w).len.toNat ≤ 9 := by
  obtain ⟨n, h1, h8, h⟩ | h := form_total w
  · rw [(toNat_decUnit_short h1 h8 h).2]
    omega
  · rw [(decUnit_long h).2]
    omega

/-- The enables of ENC are those of its length (R125). -/
theorem toNat_encUnit_be (v : Value) (tail : Window) :
    (encUnit v tail).be.toNat = 2 ^ (encUnit v tail).len.toNat - 1 := by
  have hb := band_le v
  rw [encUnit_be, toNat_encUnit_len, toNat_byteEnables (by omega)]

theorem State.EncCoherent.len_mem {s : State} (h : s.EncCoherent) : 1 ≤ s.encLen.toNat ∧ s.encLen.toNat ≤ 9 := by
  obtain ⟨tail, ht⟩ := h
  have hl : s.encLen.toNat = band s.encValue + 1 := by rw [← toNat_encUnit_len s.encValue tail, ht]
  have hb := band_le s.encValue
  omega

theorem State.EncCoherent.be_eq {s : State} (h : s.EncCoherent) : s.encBe.toNat = 2 ^ s.encLen.toNat - 1 := by
  obtain ⟨tail, ht⟩ := h
  have hb := toNat_encUnit_be s.encValue tail
  rwa [ht] at hb

theorem State.DecCoherent.len_mem {s : State} (h : s.DecCoherent) : 1 ≤ s.decLen.toNat ∧ s.decLen.toNat ≤ 9 := by
  have hl := toNat_decUnit_len_mem s.decWindow
  rwa [h] at hl

end Machine

end Sys2Proof
end

section
/-! The obligations of spec/10_state.md: what a step runs (R22), and outputs that are the functions of the present inputs
(R20, R25, R26, R31, R32). -/

namespace Sys2Proof

open Sys2Proof.Machine

/-- Settles O52, by what a step can do (`step_cases`): it leaves the state, or runs an operation on it. -/
theorem stepKeepsCombinational : Obligations.StepKeepsCombinational := by
  intro s t hs h
  obtain ⟨-, ht⟩ | ⟨x, rest, -, -, hx⟩ := step_cases h
  · rwa [ht]
  · exact exec_decode_keeps_combinational (hs.withSchedule rest) hx

/-- Settles O54: the next state is combinational too, and in such a state the bounds are those of the two functions. -/
theorem lengthsStayInRange : Obligations.LengthsStayInRange := by
  intro s t hs h
  have ht := stepKeepsCombinational s t hs h
  exact ⟨ht.enc.len_mem, ht.dec.len_mem, ht.enc.be_eq⟩

/-- Settles O57: each unit's outputs are a function of its input; of the encoder's draw only the tail lanes depend. -/
theorem outputsDependOnTheInputAlone : Obligations.OutputsDependOnTheInputAlone := by
  refine ⟨fun w s s' => ?_, fun v s s' => ?_, fun w s => ?_⟩
  · exact ⟨_, _, exec_decode_decWindow w s, exec_decode_decWindow w s', rfl, rfl⟩
  · refine ⟨_, _, exec_decode_encValue v s, exec_decode_encValue v s', rfl, rfl, fun i hi => ?_⟩
    rw [State.driveEnc_encLen, toNat_encUnit_len] at hi
    exact lane_encUnit_draw v _ _ i hi
  · exact ⟨_, exec_decode_decWindow w s, by rw [exec_decode_decWindow, State.driveDec_driveDec]⟩

/-- Settles O48: `step` on the two shapes of the schedule, and every word selects a well-formed operation. -/
theorem stepRunsThePresentedOperation : Obligations.StepRunsThePresentedOperation := by
  refine ⟨fun s x rest hs hx => ⟨decode_wellFormed x.port, ?_⟩, fun s hs => step_nil hs⟩
  rw [step_cons hs, present_proper hx]

/-- Settles O49: the word's window is presented first, held stable and with no writer. -/
theorem fetchWordRunsNext : Obligations.FetchWordRunsNext := by
  intro s nbits w h
  refine ⟨_, decodeTableWord_eq h w, ?_⟩
  have hs : (s.withFetchWord nbits w).schedule = .decode (tableWindow nbits w) .stable false :: s.schedule := rfl
  rw [step_cons hs, present_proper rfl]
  rfl

/-- Settles O53: ENC of 0 writes 0x01 into lane 0 of the reset draw, and DEC of the zero window gives `(0, 9)`. -/
theorem resetIsCombinational : Obligations.ResetIsCombinational := by
  have henc (tail : Window) : encUnit 0 tail = ⟨tail.extractLsb' 8 64 ++ 0x01#8, 1, 1⟩ := by
    rw [encUnit_short tail (by decide), ← setLane_zero]
    rfl
  have hdec : decUnit 0 = ⟨0, 9⟩ := by decide
  exact ⟨⟨Config.encTail 0, henc _⟩, hdec⟩

end Sys2Proof
end

section
/-! The facts of spec/20_memory.md that its obligation turns on: the lanes a 64-bit view is made of (R43), the forms as
remainders of the window, and the payload as a field of `low`. -/

namespace Sys2Proof

/-- The view of the lanes `[a, a+8)` holds lane `a + i` as its byte `i` (R11, R43). -/
theorem byteLE_memRead64 (w : Window) (a : Nat) {i : Nat} (hi : i < 8) : byteLE (memRead64 w a) i = lane w (a + i) := by
  apply BitVec.eq_of_getLsbD_eq
  intro m hm
  rw [byteLE, BitVec.getLsbD_extractLsb', getLsbD_memRead64, getLsbD_lane, decide_eq_true (by omega : 8 * i + m < 64),
    Bool.true_and, Nat.mul_add, Nat.add_assoc]

/-- The mask and match of a short form on lane 0 say that the window's lowest `n` bits are `10…0` (R61). -/
theorem inForm_iff (w : Window) {n : Nat} (h8 : n ≤ 8) : Claims.InForm w n ↔ w.toNat % 2 ^ n = 2 ^ (n - 1) := by
  have hmask : 2 ^ n ≤ 2 ^ 8 := Nat.pow_le_pow_right (by omega) h8
  have hmatch : 2 ^ (n - 1) < 2 ^ 8 := Nat.pow_lt_pow_right (by omega) (by omega)
  rw [Claims.InForm, Claims.formMask, Claims.formMatch, if_pos h8, if_pos h8, ← BitVec.toNat_inj,
    BitVec.toNat_and, BitVec.toNat_ofNat, BitVec.toNat_ofNat, Nat.mod_eq_of_lt (show 2 ^ n - 1 < 2 ^ 8 by omega), Nat.mod_eq_of_lt hmatch,
    Nat.and_two_pow_sub_one_eq_mod, toNat_lane_zero, Nat.mod_mod_of_dvd _ (Nat.pow_dvd_pow 2 h8)]

/-- DEC of a window in form `Ln` is the field `low[8n-1:n]` plus the offset (R155, R156). -/
theorem Machine.toNat_decUnit_value_field {w : Window} {n : Nat} (h1 : 1 ≤ n) (h8 : n ≤ 8)
    (h : w.toNat % 2 ^ n = 2 ^ (n - 1)) :
    (decUnit w).value.toNat = (memRead64 w 0).toNat / 2 ^ n % 2 ^ (7 * n) + offset (n - 1) := by
  have hu := toNat_unpack (memRead64 w 0) h8
  have hlt : (memRead64 w 0).toNat / 2 ^ n % 2 ^ (7 * n) < 2 ^ (7 * n) := Nat.mod_lt _ (by positivity)
  rw [decUnit_of_form h1 h8 h, decShort, (toNat_unbias h1 h8 (by rwa [hu])).1, hu]

end Sys2Proof
end

section
/-! The obligation of spec/20_memory.md: the two 64-bit views of the window (R43). -/

namespace Sys2Proof

open Sys2Proof.Machine

/-- Settles O24: each byte of a view is a lane, and DEC drives `decUnit`, which takes the view that lane 0 selects. -/
theorem twoViewsShareTheirLanes : Obligations.TwoViewsShareTheirLanes := by
  intro w
  refine ⟨fun j h1 h8 => ⟨?_, ?_⟩, fun s => ⟨_, exec_decode_decWindow w s, fun h0 => ?_, fun n h1 h8 hf => ?_⟩⟩
  · rw [byteLE_memRead64 w 0 h8, Nat.zero_add]
  · rw [byteLE_memRead64 w 1 (by omega), Nat.add_sub_cancel' h1]
  · exact (decUnit_long ((lane_zero_eq_zero_iff w).1 h0)).1
  · exact toNat_decUnit_value_field h1 h8 ((inForm_iff w h8).1 hf)

end Sys2Proof
end

section
/-! The facts of spec/30_encoding.md that its obligations turn on: reading back the fields a word is laid out by (R63),
the marker bit that names the form of a window (R65, R66), and the encodings that decode to a value (R70). -/

namespace Sys2Proof

/-! ## The operation of a laid-out word -/

/-- The payload is read back from above the marker, whatever the tail is (R63). -/
theorem extractLsb'_payload {a b c : Nat} (tail : BitVec a) (payload : BitVec b) (marker : BitVec c) :
    (tail ++ payload ++ marker).extractLsb' c b = payload := by
  rw [BitVec.extractLsb'_append_eq_of_le le_rfl, Nat.sub_self, BitVec.extractLsb'_append_eq_right]

/-- The tail is read back from above the payload (R63). -/
theorem extractLsb'_tail {a b c s : Nat} (tail : BitVec a) (payload : BitVec b) (marker : BitVec c) (hs : s = b + c) :
    (tail ++ payload ++ marker).extractLsb' s a = tail := by
  rw [BitVec.extractLsb'_append_eq_of_le (by omega), hs, Nat.add_sub_cancel, BitVec.extractLsb'_append_eq_left]

/-- The scan of lane 0 sees the marker field first (R65). -/
theorem getLsbD_append_of_lt {a c j : Nat} (upper : BitVec a) (marker : BitVec c) (hj : j < c) :
    (upper ++ marker).getLsbD j = marker.getLsbD j := by
  rw [BitVec.getLsbD_append, if_pos hj]

/-- The window laid out by the fields of a DEC row selects that row, with those fields. -/
theorem decodeWindow_windowLn :
    (∀ payload tail, decodeWindow (windowL1 payload tail) = .decL1 payload tail) ∧
    (∀ payload tail, decodeWindow (windowL2 payload tail) = .decL2 payload tail) ∧
    (∀ payload tail, decodeWindow (windowL3 payload tail) = .decL3 payload tail) ∧
    (∀ payload tail, decodeWindow (windowL4 payload tail) = .decL4 payload tail) ∧
    (∀ payload tail, decodeWindow (windowL5 payload tail) = .decL5 payload tail) ∧
    (∀ payload tail, decodeWindow (windowL6 payload tail) = .decL6 payload tail) ∧
    (∀ payload tail, decodeWindow (windowL7 payload tail) = .decL7 payload tail) ∧
    (∀ payload tail, decodeWindow (windowL8 payload tail) = .decL8 payload tail) ∧
    (∀ value, decodeWindow (windowL9 value) = .decL9 value) := by
  refine ⟨?_, ?_, ?_, ?_, ?_, ?_, ?_, ?_, ?_⟩ <;> intros <;>
    simp (disch := decide) only [decodeWindow, windowL1, windowL2, windowL3, windowL4, windowL5, windowL6, windowL7,
      windowL8, windowL9, getLsbD_append_of_lt, extractLsb'_payload, extractLsb'_tail,
      BitVec.extractLsb'_append_eq_left] <;> rfl

theorem decode_encode {i : Instr} (h : i.WellFormed) : decode (encode i) = i := by
  obtain ⟨l1, l2, l3, l4, l5, l6, l7, l8, l9⟩ := decodeWindow_windowLn
  cases i with
  | decL1 payload tail => exact l1 payload tail
  | decL2 payload tail => exact l2 payload tail
  | decL3 payload tail => exact l3 payload tail
  | decL4 payload tail => exact l4 payload tail
  | decL5 payload tail => exact l5 payload tail
  | decL6 payload tail => exact l6 payload tail
  | decL7 payload tail => exact l7 payload tail
  | decL8 payload tail => exact l8 payload tail
  | decL9 value => exact l9 value
  | encB0 value => simp only [encode, decode, decodeValue, (Laws.RowPattern.encB0 value).2 h]
  | encB1 value => simp only [encode, decode, decodeValue, (Laws.RowPattern.encB1 value).2 h]
  | encB2 value => simp only [encode, decode, decodeValue, (Laws.RowPattern.encB2 value).2 h]
  | encB3 value => simp only [encode, decode, decodeValue, (Laws.RowPattern.encB3 value).2 h]
  | encB4 value => simp only [encode, decode, decodeValue, (Laws.RowPattern.encB4 value).2 h]
  | encB5 value => simp only [encode, decode, decodeValue, (Laws.RowPattern.encB5 value).2 h]
  | encB6 value => simp only [encode, decode, decodeValue, (Laws.RowPattern.encB6 value).2 h]
  | encB7 value => simp only [encode, decode, decodeValue, (Laws.RowPattern.encB7 value).2 h]
  | encB8 value => simp only [encode, decode, decodeValue, (Laws.RowPattern.encB8 value).2 h]

theorem encode_decodeValue (v : Value) : encode (decodeValue v) = .encValue v := by
  rw [decodeValue]
  split <;> rfl

theorem encode_decodeWindow (w : Window) : encode (decodeWindow w) = .decWindow w := by
  obtain ⟨f1, f2, f3, f4, f5, f6, f7, f8, f9⟩ := windowLn_fields w
  rcases decodeWindow_cases w with ⟨h, e⟩ | ⟨h, e⟩ | ⟨h, e⟩ | ⟨h, e⟩ | ⟨h, e⟩ | ⟨h, e⟩ | ⟨h, e⟩ | ⟨h, e⟩ | ⟨h, e⟩ <;>
    rw [e]
  · exact congrArg _ (f1 h)
  · exact congrArg _ (f2 h)
  · exact congrArg _ (f3 h)
  · exact congrArg _ (f4 h)
  · exact congrArg _ (f5 h)
  · exact congrArg _ (f6 h)
  · exact congrArg _ (f7 h)
  · exact congrArg _ (f8 h)
  · exact congrArg _ (f9 h)

theorem encode_decode (x : PortWord) : encode (decode x) = x := by
  cases x with
  | encValue v => exact encode_decodeValue v
  | decWindow w => exact encode_decodeWindow w

/-- A table word whose window is the word of a well-formed operation selects that operation (R72). -/
theorem decodeTableWord_of_encode {i : Instr} {nbits w : Nat} (hn : nbits ≤ 72) (hi : i.WellFormed)
    (h : encode i = .decWindow (tableWindow nbits w)) : decodeTableWord nbits w = some i := by
  rw [decodeTableWord_eq hn, ← h, decode_encode hi]

/-! ## The form of a window -/

theorem inForm_nine_iff (w : Window) : Claims.InForm w 9 ↔ lane w 0 = 0 := by
  rw [Claims.InForm, Claims.formMask, Claims.formMatch, if_neg (by omega), if_neg (by omega)]
  exact iff_of_eq (congrArg (· = 0) BitVec.and_allOnes)

/-- Every window is in a form, and the decoder selects that form's row. -/
theorem exists_inForm_formOf (w : Window) :
    ∃ n, 1 ≤ n ∧ n ≤ 9 ∧ Claims.InForm w n ∧ Claims.formOf (decode (.decWindow w)) = some n := by
  have short {n : Nat} (h8 : n ≤ 8) := (inForm_iff w h8).2
  rw [decode]
  rcases decodeWindow_cases w with ⟨h, e⟩ | ⟨h, e⟩ | ⟨h, e⟩ | ⟨h, e⟩ | ⟨h, e⟩ | ⟨h, e⟩ | ⟨h, e⟩ | ⟨h, e⟩ | ⟨h, e⟩ <;>
    rw [e]
  · exact ⟨1, by omega, by omega, short (by omega) h, rfl⟩
  · exact ⟨2, by omega, by omega, short (by omega) h, rfl⟩
  · exact ⟨3, by omega, by omega, short (by omega) h, rfl⟩
  · exact ⟨4, by omega, by omega, short (by omega) h, rfl⟩
  · exact ⟨5, by omega, by omega, short (by omega) h, rfl⟩
  · exact ⟨6, by omega, by omega, short (by omega) h, rfl⟩
  · exact ⟨7, by omega, by omega, short (by omega) h, rfl⟩
  · exact ⟨8, by omega, by omega, short (by omega) h, rfl⟩
  · exact ⟨9, by omega, by omega, (inForm_nine_iff w).2 ((lane_zero_eq_zero_iff w).2 h), rfl⟩

/-- The form of a window is the length DEC gives, so no window is in two forms (R66). -/
theorem toNat_decUnit_len_of_inForm {w : Window} {n : Nat} (h1 : 1 ≤ n) (h9 : n ≤ 9) (h : Claims.InForm w n) :
    (Machine.decUnit w).len.toNat = n := by
  obtain h8 | rfl := Nat.lt_or_eq_of_le h9
  · exact (Machine.toNat_decUnit_short h1 (by omega) ((inForm_iff w (by omega)).1 h)).2
  · exact (Machine.decUnit_long ((lane_zero_eq_zero_iff w).1 ((inForm_nine_iff w).1 h))).2

theorem getLsbD_lane_zero (w : Window) {j : Nat} (hj : j < 8) : (lane w 0).getLsbD j = w.getLsbD j := by
  rw [getLsbD_lane, decide_eq_true hj, Bool.true_and, Nat.mul_zero, Nat.zero_add]

theorem getLsbD_memRead64_zero (w : Window) {j : Nat} (hj : j < 8) :
    (memRead64 w 0).getLsbD j = (lane w 0).getLsbD j := by
  rw [getLsbD_memRead64, decide_eq_true (by omega), Bool.true_and, Nat.mul_zero, Nat.zero_add, getLsbD_lane_zero w hj]

/-- A window whose lowest set bit of lane 0 is bit `b` is in form `L(b+1)`: the bits up to `b` are those of `2^b`. -/
theorem inForm_of_lowest_set_bit {w : Window} {b : Nat} (hb : b < 8) (hset : (lane w 0).getLsbD b = true)
    (hlow : ∀ j, j < b → (lane w 0).getLsbD j = false) : Claims.InForm w (b + 1) := by
  rw [inForm_iff w (show b + 1 ≤ 8 by omega), Nat.add_sub_cancel]
  apply Nat.eq_of_testBit_eq
  intro j
  rw [Nat.testBit_mod_two_pow, Nat.testBit_two_pow, BitVec.testBit_toNat]
  obtain h | rfl | h := Nat.lt_trichotomy j b
  · rw [← getLsbD_lane_zero w (by omega), hlow j h, Bool.and_false, decide_eq_false (by omega)]
  · rw [← getLsbD_lane_zero w hb, hset, decide_eq_true (by omega), decide_eq_true rfl, Bool.and_self]
  · rw [decide_eq_false (by omega), decide_eq_false (by omega), Bool.false_and]

theorem band_eq_eight_iff (v : Value) : band v = 8 ↔ offset 8 ≤ v.toNat :=
  ⟨fun h => h ▸ (band_bounds v).1, fun h => band_of_bounds le_rfl h v.isLt⟩

namespace Machine

/-- The detector on `low` finds the lowest set bit of lane 0 (R65, R152). -/
theorem ctz64_of_lowest_set_bit {w : Window} {b : Nat} (hb : b < 8) (hset : (lane w 0).getLsbD b = true)
    (hlow : ∀ j, j < b → (lane w 0).getLsbD j = false) : ctz64 (memRead64 w 0) = b := by
  rw [ctz64_eq_iff (by omega), getLsbD_memRead64_zero w hb]
  exact ⟨hset, fun j hj => by rw [getLsbD_memRead64_zero w (by omega), hlow j hj]⟩

/-- The detector counts past lane 0 when it is zero: its count is the index of a set bit (R65, R152). -/
theorem eight_le_ctz64_of_lane_zero {w : Window} (h : lane w 0 = 0) : 8 ≤ ctz64 (memRead64 w 0) := by
  by_contra hlt
  have hset := ((ctz64_eq_iff (by omega)).1 (rfl : ctz64 (memRead64 w 0) = _)).1
  simp [getLsbD_memRead64_zero w (show ctz64 (memRead64 w 0) < 8 by omega), h] at hset

/-! ## The encodings of a value -/

theorem decUnit_windowL9 (v : Value) : (decUnit (windowL9 v)).value = v ∧ (decUnit (windowL9 v)).len.toNat = 9 := by
  obtain ⟨hv, hl⟩ := decUnit_long (w := windowL9 v) (by rw [toNat_windowL9, Nat.mul_mod_left])
  exact ⟨by rw [hv, memRead64_windowL9], hl⟩

/-- A window in form `Ln` decodes into band `n - 1`, and its lanes `[0, n)` are the encoding of what it decodes to (R70,
R105): they are one number, the payload and the marker. -/
theorem encUnit_decUnit_of_form {w : Window} {n : Nat} (h1 : 1 ≤ n) (h8 : n ≤ 8) (h : w.toNat % 2 ^ n = 2 ^ (n - 1)) :
    band (decUnit w).value + 1 = n ∧
      ∀ tail i, i < n → lane w i = lane (encUnit (decUnit w).value tail).window i := by
  obtain ⟨hval, -⟩ := toNat_decUnit_short h1 h8 h
  obtain ⟨hle, hlt⟩ := le_of_form h
  obtain ⟨k, rfl⟩ : ∃ k, n = k + 1 := ⟨n - 1, by omega⟩
  rw [Nat.add_sub_cancel] at hval hle
  have hband : band (decUnit w).value = k := by
    refine band_of_bounds (by omega) ?_ ?_
    · rw [hval]
      exact Nat.le_add_left _ _
    · rw [hval, bandEnd, if_pos (by omega), offset_succ, Nat.add_comm]
      exact Nat.add_lt_add_left hlt _
  refine ⟨by rw [hband], fun tail i hi => ?_⟩
  obtain ⟨henc, -, -⟩ := le_encUnit_short tail (show band (decUnit w).value < 8 by omega)
  rw [hband, hval, Nat.add_sub_cancel, ← hle] at henc
  simpa using lane_of_le henc.symm i hi

/-- The window ENC drives for a value of a band below B8 is in the form of its length, whatever the tail (R140). -/
theorem form_encUnit_short {v : Value} (tail : Window) (h : band v < 8) :
    (encUnit v tail).window.toNat % 2 ^ (band v + 1) = 2 ^ band v := by
  obtain ⟨hle, -, -⟩ := le_encUnit_short tail h
  have hdvd : 2 ^ (band v + 1) ∣ 2 ^ (8 * (band v + 1)) := Nat.pow_dvd_pow 2 (by omega)
  rw [le_eq, Nat.mul_zero, Nat.pow_zero, Nat.div_one] at hle
  rw [← Nat.mod_mod_of_dvd _ hdvd, hle, Nat.mul_add_mod_self_right,
    Nat.mod_eq_of_lt (Nat.pow_lt_pow_right (by omega) (by omega))]

/-- DEC of the window ENC drives gives the value and the length back, whatever the tail (R171). -/
theorem decUnit_encUnit (v : Value) (tail : Window) :
    (decUnit (encUnit v tail).window).value = v ∧ (decUnit (encUnit v tail).window).len.toNat = band v + 1 := by
  obtain hlt | h8 := Nat.lt_or_eq_of_le (band_le v)
  · obtain ⟨hval, hlen⟩ := toNat_decUnit_short (n := band v + 1) (by omega) hlt (form_encUnit_short tail hlt)
    refine ⟨BitVec.eq_of_toNat_eq ?_, hlen⟩
    obtain ⟨hle, -, -⟩ := le_encUnit_short tail hlt
    obtain ⟨hlo, -⟩ := band_bounds v
    have hmark : 2 ^ band v < 2 ^ (band v + 1) := Nat.pow_lt_pow_right (by omega) (by omega)
    rw [hval, hle, Nat.mul_comm, Nat.mul_add_div (by positivity), Nat.div_eq_of_lt hmark, Nat.add_sub_cancel,
      Nat.add_zero, Nat.sub_add_cancel hlo]
  · rw [window_encUnit_long tail h8, h8]
    exact decUnit_windowL9 v

/-- A window is the canonical encoding of what it decodes to, or the L9 window of a value below `Offset[8]` (R70). -/
theorem canonical_or_supernormal (w tail : Window) :
    ((decUnit w).len.toNat = band (decUnit w).value + 1 ∧
        ∀ i, i < (decUnit w).len.toNat → lane w i = lane (encUnit (decUnit w).value tail).window i) ∨
      ((decUnit w).len.toNat = 9 ∧ (decUnit w).value.toNat < offset 8 ∧ w = windowL9 (decUnit w).value) := by
  obtain ⟨n, h1, h8, h⟩ | h := form_total w
  · obtain ⟨hband, hlanes⟩ := encUnit_decUnit_of_form h1 h8 h
    rw [(toNat_decUnit_short h1 h8 h).2]
    exact .inl ⟨hband.symm, hlanes tail⟩
  · obtain ⟨hval, hlen⟩ := decUnit_long h
    have hw : w = windowL9 (decUnit w).value := by rw [hval, ← eq_windowL9 h]
    obtain hv | hv := Nat.lt_or_ge (decUnit w).value.toNat (offset 8)
    · exact .inr ⟨hlen, hv, hw⟩
    · have h8 := (band_eq_eight_iff _).2 hv
      exact .inl ⟨by rw [hlen, h8], fun i _ => by rw [window_encUnit_long tail h8, ← hw]⟩

end Machine

end Sys2Proof
end

section
/-! The obligations of spec/30_encoding.md: words and operations correspond one to one (R60 to R63, R69, R72), lane 0
names the form (R65, R66), and the encodings of a value (R70). -/

namespace Sys2Proof

open Sys2Proof.Machine

/-- Settles O19, by the row: a DEC row's fields are read back from where they were laid out, and an ENC row's value is
of the row's band. -/
theorem decodeOfEncodeIsIdentity : Obligations.DecodeOfEncodeIsIdentity := fun _ h => decode_encode h

/-- Settles O20, by the row the word selects. -/
theorem encodeOfDecodeIsIdentity : Obligations.EncodeOfDecodeIsIdentity :=
  fun x => ⟨decode_wellFormed x, encode_decode x⟩

/-- Settles O21: the selected row's form matches, and no other does, since the form is the length DEC gives. -/
theorem formsPartitionTheWindows : Obligations.FormsPartitionTheWindows := by
  intro w
  obtain ⟨k, h1, h9, hform, hrow⟩ := exists_inForm_formOf w
  have unique {n : Nat} (hn1 : 1 ≤ n) (hn9 : n ≤ 9) (hn : Claims.InForm w n) : n = k := by
    rw [← toNat_decUnit_len_of_inForm hn1 hn9 hn, toNat_decUnit_len_of_inForm h1 h9 hform]
  refine ⟨⟨k, ⟨⟨h1, h9⟩, hform⟩, fun n ⟨⟨hn1, hn9⟩, hn⟩ => unique hn1 hn9 hn⟩,
    fun n hn1 hn9 => ⟨fun hn => ?_, fun hn => ?_⟩,
    (inForm_nine_iff w).2, fun b hb hset hlow => inForm_of_lowest_set_bit hb hset hlow⟩
  · rw [hrow, unique hn1 hn9 hn]
  · rw [hrow, Option.some_inj] at hn
    rwa [← hn]

/-- Settles O22: the lowest set bit of lane 0 names the form, the form is the length, and the detector finds the same
bit. -/
theorem lengthFollowsFromLaneZero : Obligations.LengthFollowsFromLaneZero := by
  refine fun w s => ⟨_, exec_decode_decWindow w s, fun b hb hset hlow => ⟨?_, ctz64_of_lowest_set_bit hb hset hlow⟩,
    fun h => ⟨?_, eight_le_ctz64_of_lane_zero h⟩⟩
  · exact toNat_decUnit_len_of_inForm (by omega) (by omega) (inForm_of_lowest_set_bit hb hset hlow)
  · exact toNat_decUnit_len_of_inForm (by omega) le_rfl ((inForm_nine_iff w).2 h)

/-- Settles O43: a short form is the canonical encoding of what it decodes to; an L9 window is its value's L9 window,
which is the canonical encoding from `Offset[8]` on. -/
theorem encodingsOfAValue : Obligations.EncodingsOfAValue := by
  refine ⟨fun w tail s => ⟨_, exec_decode_decWindow w s, ?_, fun hlen => ?_⟩, fun v tail s hv => ⟨?_, ?_⟩⟩
  · exact canonical_or_supernormal w tail
  · rw [toNat_encUnit_len] at hlen
    exact (band_eq_eight_iff _).1 (by omega)
  · obtain ⟨hval, hlen⟩ := decUnit_encUnit v tail
    have hle := band_le v
    have h8 := band_eq_eight_iff v
    exact ⟨_, exec_decode_decWindow _ s, hval, by rw [State.driveDec_decLen, hlen]; omega⟩
  · exact ⟨_, exec_decode_decWindow _ s, decUnit_windowL9 v⟩

/-- Settles O23: each word is the word of a well-formed operation, which decoding gives back. -/
theorem tableWordsDecode : Obligations.TableWordsDecode := by
  have table {i : Instr} {w : Nat} := decodeTableWord_of_encode (i := i) (w := w) (le_refl 72)
  refine ⟨table rfl ?_, table rfl ?_, table rfl ?_, table rfl ?_, ?_, ?_, ?_, ?_⟩
  · decide
  · decide
  · decide
  · decide
  · exact decode_encode (i := .encB0 127) (by decide)
  · exact decode_encode (i := .encB1 128) (by decide)
  · exact decode_encode (i := .encB7 72624976668147839) (by decide)
  · exact decode_encode (i := .encB8 72624976668147840) (by decide)

end Sys2Proof
end

section
/-! The facts of spec/40_range_partition.md that its obligations turn on: the bounds of a band name it (R110), each row of
ENC is its band's (R121), and a payload names its value (R105). -/

namespace Sys2Proof

/-- The bounds of a band name it: the classification of R110 in both directions. -/
theorem band_eq_iff {v : Value} {k : Nat} (hk : k ≤ 8) : band v = k ↔ offset k ≤ v.toNat ∧ v.toNat < bandEnd k :=
  ⟨fun h => h ▸ band_bounds v, fun ⟨hlo, hhi⟩ => band_of_bounds hk hlo hhi⟩

theorem bandEnd_of_lt {k : Nat} (hk : k < 8) : bandEnd k = offset k + 2 ^ (7 * (k + 1)) := by
  rw [bandEnd, if_pos hk, offset_succ]

/-- The encoder selects the row of the value's band (R121). -/
theorem bandOf_decodeValue (v : Value) : Claims.bandOf (decodeValue v) = some (band v) := by
  rw [decodeValue]
  have h8 := band_le v
  interval_cases band v <;> rfl

/-- A payload placed at the bottom of its band fits the 64-bit port. -/
theorem toNat_ofNat_offset_add {k p : Nat} (hk : k < 8) (hp : p < 2 ^ (7 * (k + 1))) :
    (BitVec.ofNat 64 (offset k + p)).toNat = offset k + p := by
  have htop : offset (k + 1) ≤ offset 8 := offset_strictMono.monotone hk
  rw [offset_succ, offset_eight] at htop
  rw [BitVec.toNat_ofNat, Nat.mod_eq_of_lt (by omega)]

/-- The value of a band with a given payload is `Offset[k] + p`, and no other (R105). -/
theorem band_payload_iff {v : Value} {k p : Nat} (hk : k < 8) (hp : p < 2 ^ (7 * (k + 1))) :
    band v = k ∧ v.toNat - offset k = p ↔ v.toNat = offset k + p := by
  rw [band_eq_iff hk.le, bandEnd_of_lt hk]
  omega

end Sys2Proof
end

section
/-! The obligations of spec/40_range_partition.md: the tables' values (R100, R101, R108), the bands partition the 64-bit
values (R110, R121), and each payload of a band is one value (R105). -/

namespace Sys2Proof

/-- Settles O27: the value's band is the one whose bounds hold it, and the row is that band's. -/
theorem bandIsTheUniquePartition : Obligations.BandIsTheUniquePartition := by
  intro v
  obtain ⟨hlo, hhi⟩ := band_bounds v
  exact ⟨⟨band v, ⟨band_le v, hlo, hhi⟩, fun k ⟨hk, hbounds⟩ => ((band_eq_iff hk).2 hbounds).symm⟩,
    band_le v, hlo, hhi, bandOf_decodeValue v⟩

/-- Settles O28: the value is `Offset[k] + p`, which the band and the payload determine. -/
theorem everyPayloadIsOneValue : Obligations.EveryPayloadIsOneValue := by
  intro k p hk hp
  have hv := toNat_ofNat_offset_add hk hp
  refine ⟨BitVec.ofNat 64 (offset k + p), (band_payload_iff hk hp).2 hv, fun v h => ?_⟩
  exact BitVec.eq_of_toNat_eq (((band_payload_iff hk hp).1 h).trans hv.symm)

/-- Settles O26: the recurrence is the table's definition, each entry fits its 64-bit constant since the last one does,
and the shift pair is arithmetic in `n`. -/
theorem rangePartitionValues : Obligations.RangePartitionValues := by
  refine ⟨by decide, fun k h1 h8 => ⟨?_, toNat_offsetWord k h8⟩, by decide, by decide, fun n _ h8 => ?_⟩
  · obtain ⟨j, rfl⟩ := Nat.exists_eq_add_of_le' h1
    exact offset_succ j
  · rw [right, left]
    omega

end Sys2Proof
end

section
/-! The facts of spec/41_encoder.md that its obligations turn on: the band as the count of boundaries passed (R121), what a
row of ENC drives (R128 to R136), the packed integer bit by bit (R123), the datapath's stages (R141), and a step on a
proper schedule. -/

namespace Sys2Proof

/-! ## The band and the boundaries (R121) -/

theorem inRange_of_le {v : Value} {lo hi : Nat} (hlo : lo ≤ v.toNat) (hhi : v.toNat ≤ hi) : inRange v lo hi = true := by
  rw [inRange, decide_eq_true hlo, decide_eq_true hhi, Bool.and_self]

/-- A boundary is at or below a value exactly when its number is at most the band. -/
theorem offset_le_iff {v : Value} {j : Nat} (hj : j ≤ 8) : offset j ≤ v.toNat ↔ j ≤ band v := by
  obtain ⟨hlo, hhi⟩ := band_bounds v
  constructor
  · intro h
    by_contra hlt
    have hnext : offset (band v + 1) ≤ offset j := offset_strictMono.monotone (by omega)
    rw [bandEnd, if_pos (by omega)] at hhi
    omega
  · intro h
    exact (offset_strictMono.monotone h).trans hlo

theorem band_mono {v v' : Value} (h : v.toNat ≤ v'.toNat) : band v ≤ band v' :=
  (offset_le_iff (band_le v)).1 ((band_bounds v).1.trans h)

/-- A boundary is the first value of its band. -/
theorem band_ofNat_offset {k : Nat} (hk : k ≤ 8) : band (BitVec.ofNat 64 (offset k)) = k := by
  have hv : (BitVec.ofNat 64 (offset k)).toNat = offset k := toNat_offsetWord k hk
  refine band_of_bounds hk hv.ge ?_
  rw [hv]
  obtain hlt | rfl := Nat.lt_or_eq_of_le hk
  · rw [bandEnd_of_lt hlt]
    exact Nat.lt_add_of_pos_right (by positivity)
  · decide

/-- The value just below a boundary is the last of the band before it. -/
theorem band_ofNat_offset_sub_one {k : Nat} (h1 : 1 ≤ k) (h8 : k ≤ 8) :
    band (BitVec.ofNat 64 (offset k - 1)) + 1 = k := by
  obtain ⟨j, rfl⟩ := Nat.exists_eq_add_of_le' h1
  have hpos : 0 < 2 ^ (7 * (j + 1)) := by positivity
  have hlast : 2 ^ (7 * (j + 1)) - 1 < 2 ^ (7 * (j + 1)) := Nat.sub_lt hpos Nat.one_pos
  rw [offset_succ, Nat.add_sub_assoc hpos, ((band_payload_iff h8 hlast).2 (toNat_ofNat_offset_add h8 hlast)).1]

namespace Machine

/-! ## The window ENC drives: its raw value or its marker (R124, R140) -/

theorem lane_zero_encUnit_long {v : Value} (tail : Window) (h : band v = 8) : lane (encUnit v tail).window 0 = 0 := by
  rw [window_encUnit_long tail h, lane_zero_eq_zero_iff, toNat_windowL9, Nat.mul_mod_left]

/-- Band B8 stores the raw value (R124). -/
theorem le_encUnit_long {v : Value} (tail : Window) (h : band v = 8) : le (encUnit v tail).window 1 8 = v.toNat := by
  rw [window_encUnit_long tail h, ← toNat_memRead64, memRead64_windowL9]

/-- The lowest set bit of lane 0 is the marker of the band. -/
theorem getLsbD_lane_zero_encUnit {v : Value} (tail : Window) (h : band v < 8) {j : Nat} (hj : j ≤ band v) :
    (lane (encUnit v tail).window 0).getLsbD j = decide (j = band v) := by
  rw [getLsbD_lane_zero _ (by omega), getLsbD_of_form (n := band v + 1) (form_encUnit_short tail h) j (by omega),
    Nat.add_sub_cancel]

theorem inForm_encUnit (v : Value) (tail : Window) :
    Claims.InForm (encUnit v tail).window (encUnit v tail).len.toNat := by
  rw [toNat_encUnit_len]
  obtain hlt | h8 := Nat.lt_or_eq_of_le (band_le v)
  · exact (inForm_iff _ hlt).2 (form_encUnit_short tail hlt)
  · rw [h8]
    exact (inForm_nine_iff _).2 (lane_zero_encUnit_long tail h8)

/-! ## What a row of ENC drives (R128 to R136) -/

/-- The encoding of a value: the lanes `[0, n)` of the window ENC drives, which no draw changes. -/
def encoding (v : Value) : List Byte := (List.range (band v + 1)).map (lane (encUnit v 0).window)

@[simp] theorem length_encoding (v : Value) : (encoding v).length = band v + 1 := by simp [encoding]

theorem map_lane_encUnit (v : Value) (tail : Window) :
    (List.range (band v + 1)).map (lane (encUnit v tail).window) = encoding v :=
  List.map_congr_left fun i hi => lane_encUnit_draw v tail 0 i (List.mem_range.1 hi)

theorem toNat_encUnit_be_band (v : Value) (tail : Window) : (encUnit v tail).be.toNat = 2 ^ (band v + 1) - 1 := by
  rw [toNat_encUnit_be, toNat_encUnit_len]

theorem encFrame_driveEnc (s : State) (v : Value) (o : EncOut) : Claims.EncFrame s (s.driveEnc v o) v :=
  ⟨rfl, rfl, rfl, rfl, rfl, rfl⟩

/-- A well-formed row of ENC is the row its value selects, so it drives the function of R120. -/
theorem decode_exec_of_row {i : Instr} {v : Value} (hi : i.WellFormed) (hv : encode i = .encValue v) :
    decode (.encValue v) = i ∧ ∀ s, exec i s = .next (s.driveEnc v (encUnit v s.tailDraw)) := by
  have hrow : decode (.encValue v) = i := hv ▸ decode_encode hi
  exact ⟨hrow, fun s => hrow ▸ exec_decode_encValue v s⟩

theorem band_of_row {i : Instr} {v : Value} {k : Nat} (hi : i.WellFormed) (hv : encode i = .encValue v)
    (hk : Claims.bandOf i = some k) : band v = k := by
  rw [← (decode_exec_of_row hi hv).1, decode, bandOf_decodeValue, Option.some_inj] at hk
  exact hk

/-- A row of a band below B8 packs the biased value above its marker. -/
theorem encodesShort_of_row {i : Instr} {v : Value} {k : Nat} (hi : i.WellFormed) (hv : encode i = .encValue v)
    (hk : Claims.bandOf i = some k) (h8 : k < 8) :
    decode (.encValue v) = i ∧ ∀ s, Claims.EncodesShort i v (offset k) (k + 1) s := by
  obtain ⟨hrow, hexec⟩ := decode_exec_of_row hi hv
  obtain rfl := band_of_row hi hv hk
  refine ⟨hrow, fun s => ⟨_, hexec s, ?_⟩⟩
  obtain ⟨hle, -, htail⟩ := le_encUnit_short s.tailDraw h8
  exact ⟨hle, htail, toNat_encUnit_len v s.tailDraw, toNat_encUnit_be_band v s.tailDraw, encFrame_driveEnc s v _⟩

/-- The row of band B8 drives the L9 window of the raw value. -/
theorem encodesLong_of_row {i : Instr} {v : Value} (hi : i.WellFormed) (hv : encode i = .encValue v)
    (hk : Claims.bandOf i = some 8) : decode (.encValue v) = i ∧ ∀ s, Claims.EncodesLong i v s := by
  obtain ⟨hrow, hexec⟩ := decode_exec_of_row hi hv
  have h8 := band_of_row hi hv hk
  refine ⟨hrow, fun s => ⟨_, hexec s, ?_⟩⟩
  refine ⟨lane_zero_encUnit_long s.tailDraw h8, le_encUnit_long s.tailDraw h8, ?_, ?_, encFrame_driveEnc s v _⟩
  · rw [State.driveEnc_encLen, toNat_encUnit_len, h8]
  · rw [State.driveEnc_encBe, toNat_encUnit_be_band, h8]

/-- The lanes of an example, by evaluating the encoding of its value. -/
theorem givesLanes_of_row {i : Instr} {v : Value} {bytes : List Byte} (hi : i.WellFormed)
    (hv : encode i = .encValue v) (h : encoding v = bytes) : Claims.GivesLanes i bytes := by
  subst h
  intro s
  rw [length_encoding]
  exact ⟨_, (decode_exec_of_row hi hv).2 s, map_lane_encUnit v s.tailDraw, toNat_encUnit_len v s.tailDraw⟩

/-! ## The packed integer, bit by bit (R123) -/

theorem getLsbD_packMarker (b : Value) {n j : Nat} (hj : j < 64) :
    (packMarker b n).getLsbD j = ((decide (n ≤ j) && b.getLsbD (j - n)) || decide (j = n - 1)) := by
  have hmark : (1#64 <<< (n - 1)).getLsbD j = decide (j = n - 1) := by
    rw [← BitVec.twoPow_eq, BitVec.getLsbD_twoPow]
    grind
  rw [packMarker, BitVec.getLsbD_or, hmark, BitVec.getLsbD_shiftLeft, decide_eq_true hj, Bool.true_and,
    ← decide_not, decide_eq_decide.2 Nat.not_lt]

/-- The source's form: shift in the marker at bit 0, then shift to the form's place. -/
theorem packMarker_eq_shift (b : Value) {n : Nat} (h1 : 1 ≤ n) :
    packMarker b n = ((b <<< 1) ||| 1#64) <<< (n - 1) := by
  rw [packMarker, BitVec.shiftLeft_or_distrib, ← BitVec.shiftLeft_add, Nat.add_sub_cancel' h1]

/-! ## The stages of the reference datapath (R141) -/

theorem comparator_eq {v : Value} {j : Nat} (hj : j ≤ 8) : comparator v j = decide (j ≤ band v) := by
  rw [comparator, decide_eq_decide, BitVec.le_def, toNat_offsetWord j hj]
  exact offset_le_iff hj

theorem thermometerCount_eq_band (v : Value) : thermometerCount v = band v := by
  rw [thermometerCount, band, ← List.countP_eq_length_filter]
  refine List.countP_congr fun j hj => ?_
  rw [List.mem_range'_1] at hj
  rw [comparator_eq (by omega), decide_eq_true_iff, decide_eq_true_iff, offset_le_iff (by omega)]

theorem packStage_eq_packMarker (v : Value) (k : Nat) :
    packStage v k = packMarker (biasSubtract v (offsetWord k)) (k + 1) := rfl

/-- Bit `i` of the enables is comparator `i`, which is on up to the band. -/
theorem enableStage_eq (v : Value) : enableStage v = byteEnables (band v + 1) := by
  have h8 := band_le v
  simp (disch := decide) only [enableStage, comparator_eq]
  interval_cases band v <;> rfl

/-- The lanes below a lane 8 are the bytes of the 64-bit word there. -/
theorem lane_append_eq_byteLE (b : Byte) (p : Value) {j : Nat} (hj : j < 8) : lane (b ++ p) j = byteLE p j := by
  rw [lane, byteLE, BitVec.extractLsb'_append_eq_of_add_le (by omega)]

/-- What the output multiplexers select for band B8 is the value's L9 window. -/
theorem extractLsb'_append_eq_windowL9 (v : Value) :
    v.extractLsb' 56 8 ++ (v.extractLsb' 0 56 ++ 0x00#8) = windowL9 v := by
  apply BitVec.eq_of_toNat_eq
  have hv := v.isLt
  rw [toNat_windowL9, toNat_append_eq, toNat_append_eq, BitVec.extractLsb'_toNat, BitVec.extractLsb'_toNat,
    Nat.shiftRight_eq_div_pow, Nat.shiftRight_eq_div_pow, BitVec.toNat_ofNat]
  omega

/-- The datapath's window is ENC's for the draw that is that window itself: the lanes past the encoding are the packed
integer's zeros and `tail8`. -/
theorem window_encDatapath (v : Value) (tail8 : Byte) :
    (encDatapath v tail8).window = (encUnit v (encDatapath v tail8).window).window := by
  obtain hlt | h8 := Nat.lt_or_eq_of_le (band_le v)
  · apply window_ext
    intro j hj
    have hoff : comparator v 8 = false := by rw [comparator_eq le_rfl, decide_eq_false (by omega)]
    rw [encUnit_short _ hlt, lane_encShort _ _ _ _ _ hj]
    split
    · simp only [encDatapath, hoff, Bool.false_eq_true, if_false, thermometerCount_eq_band,
        packStage_eq_packMarker]
      exact lane_append_eq_byteLE _ _ (by omega)
    · rfl
  · have hon : comparator v 8 = true := by rw [comparator_eq le_rfl, decide_eq_true h8.ge]
    rw [window_encUnit_long _ h8]
    simp only [encDatapath, hon, if_true]
    exact extractLsb'_append_eq_windowL9 v

theorem EncOut.eq_of_fields {o o' : EncOut} (hwindow : o.window = o'.window) (hlen : o.len = o'.len)
    (hbe : o.be = o'.be) : o = o' := by
  cases o
  cases o'
  exact (EncOut.mk.injEq ..).mpr ⟨hwindow, hlen, hbe⟩

theorem encDatapath_eq_encUnit (v : Value) (tail8 : Byte) :
    encDatapath v tail8 = encUnit v (encDatapath v tail8).window := by
  have hlen : (encDatapath v tail8).len = (encUnit v (encDatapath v tail8).window).len := by
    rw [encUnit, bandLength_band, encDatapath, thermometerCount_eq_band]
    rfl
  have hbe : (encDatapath v tail8).be = (encUnit v (encDatapath v tail8).window).be :=
    (enableStage_eq v).trans (encUnit_be v _).symm
  exact EncOut.eq_of_fields (window_encDatapath v tail8) hlen hbe

/-! ## A step on a proper schedule (R137, R168, R200) -/

/-- An operation that a word selects completes, and takes nothing from the schedule. -/
theorem exec_decode_completes (x : PortWord) (s : State) :
    ∃ t, exec (decode x) s = .next t ∧ t.schedule = s.schedule := by
  cases x with
  | encValue v => exact ⟨_, exec_decode_encValue v s, rfl⟩
  | decWindow w => exact ⟨_, exec_decode_decWindow w s, rfl⟩

theorem step_of_properSchedule {s : State} (h : s.ProperSchedule) :
    ∃ t, step s = .next t ∧ t.schedule = s.schedule.tail := by
  cases hs : s.schedule with
  | nil => exact ⟨s, step_nil hs, hs⟩
  | cons x rest =>
    have hx : x.hazard = none := h x (hs ▸ List.mem_cons_self)
    rw [step_cons hs, present_proper hx]
    exact exec_decode_completes x.port _

end Machine

end Sys2Proof
end

section
/-! The obligations of spec/41_encoder.md: the nine rows of ENC (R124, R128 to R136), the stages (R122, R123, R125), the
lengths (R137 to R140), the reference datapath (R141), and runs that never stop. -/

namespace Sys2Proof

open Sys2Proof.Machine

/-- Settles O1. Lane 0 is `2v + 1`, so it is odd, and 0xFF for 127 alone. -/
theorem encB0PacksOneByte : Obligations.EncB0PacksOneByte := by
  have row {v : Value} (hv : v.toNat ≤ 127) :=
    encodesShort_of_row (i := .encB0 v) (inRange_of_le (Nat.zero_le _) hv) rfl rfl (by omega)
  refine ⟨fun v hv => row hv, ?_, ?_, ?_, fun v s hv => ?_⟩
  · exact givesLanes_of_row (by decide) rfl (by decide)
  · exact givesLanes_of_row (by decide) rfl (by decide)
  · exact givesLanes_of_row (by decide) rfl (by decide)
  · obtain ⟨t, ht, hle, -⟩ := (row hv).2 s
    have hlane : (lane t.encWindow 0).toNat = 2 * v.toNat + 1 := by
      simpa [le, Nat.mul_comm] using hle
    refine ⟨t, ht, ?_, ?_⟩
    · rw [BitVec.getLsbD, hlane, Nat.testBit_zero]
      simp
    · rw [← BitVec.toNat_inj, hlane, show (0xFF : Byte).toNat = 255 from rfl]
      omega

/-- Settles O2, by what a row of a band below B8 drives. -/
theorem encB1PacksTwoBytes : Obligations.EncB1PacksTwoBytes := by
  refine ⟨fun v hlo hhi => encodesShort_of_row (i := .encB1 v) (inRange_of_le hlo hhi) rfl rfl (by omega),
    ?_, ?_, ?_, ?_⟩ <;> exact givesLanes_of_row (by decide) rfl (by decide)

/-- Settles O3, by what a row of a band below B8 drives. -/
theorem encB2PacksThreeBytes : Obligations.EncB2PacksThreeBytes := by
  refine ⟨fun v hlo hhi => encodesShort_of_row (i := .encB2 v) (inRange_of_le hlo hhi) rfl rfl (by omega),
    ?_, ?_, ?_⟩ <;> exact givesLanes_of_row (by decide) rfl (by decide)

/-- Settles O4, by what a row of a band below B8 drives. -/
theorem encB3PacksFourBytes : Obligations.EncB3PacksFourBytes := by
  refine ⟨fun v hlo hhi => encodesShort_of_row (i := .encB3 v) (inRange_of_le hlo hhi) rfl rfl (by omega),
    ?_, ?_, ?_⟩ <;> exact givesLanes_of_row (by decide) rfl (by decide)

/-- Settles O5, by what a row of a band below B8 drives. -/
theorem encB4PacksFiveBytes : Obligations.EncB4PacksFiveBytes := by
  refine ⟨fun v hlo hhi => encodesShort_of_row (i := .encB4 v) (inRange_of_le hlo hhi) rfl rfl (by omega),
    ?_, ?_, ?_, ?_⟩ <;> exact givesLanes_of_row (by decide) rfl (by decide)

/-- Settles O6, by what a row of a band below B8 drives. -/
theorem encB5PacksSixBytes : Obligations.EncB5PacksSixBytes := by
  refine ⟨fun v hlo hhi => encodesShort_of_row (i := .encB5 v) (inRange_of_le hlo hhi) rfl rfl (by omega),
    ?_, ?_, ?_⟩ <;> exact givesLanes_of_row (by decide) rfl (by decide)

/-- Settles O7, by what a row of a band below B8 drives. -/
theorem encB6PacksSevenBytes : Obligations.EncB6PacksSevenBytes := by
  refine ⟨fun v hlo hhi => encodesShort_of_row (i := .encB6 v) (inRange_of_le hlo hhi) rfl rfl (by omega),
    ?_, ?_, ?_⟩ <;> exact givesLanes_of_row (by decide) rfl (by decide)

/-- Settles O8. The packed integer fills lanes `[0, 8)`: its low byte is 0x80, and its bit 63 is bit 55 of the biased
value. -/
theorem encB7PacksEightBytes : Obligations.EncB7PacksEightBytes := by
  have row {v : Value} (hlo : 567382630219904 ≤ v.toNat) (hhi : v.toNat ≤ 72624976668147839) :=
    encodesShort_of_row (i := .encB7 v) (inRange_of_le hlo hhi) rfl rfl (by omega)
  refine ⟨fun v hlo hhi => row hlo hhi, ?_, ?_, ?_, fun v s hlo hhi => ?_⟩
  · exact givesLanes_of_row (by decide) rfl (by decide)
  · exact givesLanes_of_row (by decide) rfl (by decide)
  · exact givesLanes_of_row (by decide) rfl (by decide)
  · obtain ⟨t, ht, hle, -⟩ := (row hlo hhi).2 s
    have hlow : t.encWindow.toNat % 2 ^ 64 = (v.toNat - 567382630219904) * 2 ^ 8 + 2 ^ 7 := by
      simpa [le_eq] using hle
    refine ⟨t, ht, ?_, fun htop => ?_⟩
    · rw [← BitVec.toNat_inj, toNat_lane_zero, show (0x80 : Byte).toNat = 128 from rfl]
      omega
    · rw [getLsbD_lane, getLsbD_eq_div, decide_eq_true (by omega : 7 < 8), Bool.true_and, decide_eq_true_iff]
      omega

/-- Settles O9, by what the row of band B8 drives. -/
theorem encB8StoresRawValue : Obligations.EncB8StoresRawValue := by
  refine ⟨fun v hlo => encodesLong_of_row (i := .encB8 v) (inRange_of_le hlo (by omega)) rfl rfl, ?_, ?_, ?_⟩ <;>
    exact givesLanes_of_row (by decide) rfl (by decide)

/-- Settles O29: the value lies in its band, whose width is `2^(7n)`; from B8 on the window is the value's L9 window. -/
theorem biasNeverBorrows : Obligations.BiasNeverBorrows := by
  intro v
  obtain ⟨hlo, hhi⟩ := band_bounds v
  refine ⟨fun h8 => ?_, fun h8 s => ⟨_, exec_decode_encValue v s, le_encUnit_long s.tailDraw h8⟩⟩
  have hword := toNat_offsetWord (band v) h8.le
  have hsub := toNat_biasSubtract (v := v) (bias := offsetWord (band v)) (by omega)
  rw [bandEnd_of_lt h8] at hhi
  rw [hsub, hword]
  exact ⟨hlo, rfl, by omega⟩

/-- Settles O30, by the bits of the packed integer and its bound. -/
theorem packLosesNoPayloadBit : Obligations.PackLosesNoPayloadBit := by
  intro b n h1 h8 hb
  obtain ⟨hp, hfit⟩ := toNat_packMarker h1 h8 hb
  rw [← hp] at hfit
  refine ⟨hfit, fun j hj => ?_, ?_, fun j hj => ?_, packMarker_eq_shift b h1, fun w => ?_⟩
  · rw [getLsbD_packMarker b (by omega), decide_eq_true (by omega), decide_eq_false (by omega), Bool.true_and,
      Bool.or_false, Nat.add_sub_cancel_left]
  · rw [getLsbD_packMarker b (by omega), decide_eq_true (rfl : n - 1 = n - 1), Bool.or_true]
  · rw [getLsbD_packMarker b (by omega), decide_eq_false (by omega), decide_eq_false (by omega), Bool.false_and,
      Bool.or_false]
  · rw [le_memWrite _ _ _ _ _ le_rfl (by omega), Nat.mod_eq_of_lt hfit]

/-- Settles O31: the enables are those of the length, and a lane is written exactly where its enable is 1. -/
theorem byteEnablesPreserveTheBuffer : Obligations.ByteEnablesPreserveTheBuffer := by
  intro v s
  have h8 := band_le v
  have hbit (i : Nat) : (encUnit v s.tailDraw).be.getLsbD i = decide (i < (encUnit v s.tailDraw).len.toNat) := by
    rw [encUnit_be, toNat_encUnit_len, getLsbD_byteEnables (by omega)]
  refine ⟨_, exec_decode_encValue v s, toNat_encUnit_be v s.tailDraw, fun i _ => hbit i, fun old i hi => ?_⟩
  rw [State.driveEnc_encBe, State.driveEnc_encLen, writeThrough, lane_mergeLanes _ _ _ _ _ le_rfl hi, hbit]
  simp [hi]

/-- Settles O32: only the value's own band holds it, and the band is monotonic. -/
theorem encodingIsMinimalAndMonotonic : Obligations.EncodingIsMinimalAndMonotonic := by
  refine ⟨fun v s => ⟨_, exec_decode_encValue v s, toNat_encUnit_len v s.tailDraw, fun n h1 h9 hlo hhi => ?_⟩,
    fun v v' s s' hv => ⟨_, _, exec_decode_encValue v s, exec_decode_encValue v' s', ?_⟩⟩
  · have hband : band v = n - 1 := band_of_bounds (by omega) hlo hhi
    rw [State.driveEnc_encLen, toNat_encUnit_len, hband]
    omega
  · rw [State.driveEnc_encLen, State.driveEnc_encLen, toNat_encUnit_len, toNat_encUnit_len]
    exact Nat.succ_le_succ (band_mono hv)

/-- Settles O33: `Offset[k]` is the first value of band `k`, and the value below it is of band `k - 1`. -/
theorem bandBoundariesAreExact : Obligations.BandBoundariesAreExact := by
  refine ⟨fun k s h1 h8 => ⟨_, _, exec_decode_encValue _ s, ?_, exec_decode_encValue _ s, ?_⟩,
    fun s => ⟨_, exec_decode_encValue _ s, ?_⟩⟩
  · rw [State.driveEnc_encLen, toNat_encUnit_len, band_ofNat_offset_sub_one h1 h8]
  · rw [State.driveEnc_encLen, toNat_encUnit_len, band_ofNat_offset h8]
  · rw [State.driveEnc_encLen, toNat_encUnit_len, (band_eq_eight_iff _).2 (by decide)]

/-- Settles O34: the marker of the band is the lowest set bit of lane 0, which is zero for band B8. -/
theorem encoderProducesItsForm : Obligations.EncoderProducesItsForm := by
  refine ⟨fun v tail => ⟨inForm_encUnit v tail, fun h8 => ?_, lane_zero_encUnit_long tail⟩,
    fun v s => ⟨_, exec_decode_encValue v s, inForm_encUnit v _⟩⟩
  rw [toNat_encUnit_len, Nat.add_sub_cancel]
  have hmark : (lane (encUnit v tail).window 0).getLsbD (band v) = true := by
    rw [getLsbD_lane_zero_encUnit tail h8 le_rfl, decide_eq_true rfl]
  refine ⟨fun hzero => ?_, hmark, fun j hj => ?_⟩
  · rw [hzero] at hmark
    simp at hmark
  · rw [getLsbD_lane_zero_encUnit tail h8 hj.le, decide_eq_false hj.ne]

/-- Settles O35: the length, the enables and the lanes `[0, n)` are functions of the value alone. -/
theorem encoderIsTotal : Obligations.EncoderIsTotal := by
  intro v
  have h8 := band_le v
  refine ⟨band v + 1, encoding v, by omega, by omega, length_encoding v, fun s => ⟨_, exec_decode_encValue v s, ?_⟩⟩
  exact ⟨toNat_encUnit_len v s.tailDraw, toNat_encUnit_be_band v s.tailDraw, map_lane_encUnit v s.tailDraw⟩

/-- Settles O36, by the row of the value's band. -/
theorem encRowsAgreeWithTheUnit : Obligations.EncRowsAgreeWithTheUnit := exec_decode_encValue

/-- Settles O37: the comparators are on up to the band, so each stage is the unit's. -/
theorem encoderDatapathConforms : Obligations.EncoderDatapathConforms := by
  refine fun v tail8 => ⟨⟨_, encDatapath_eq_encUnit v tail8⟩, fun i j _ hij h8 hj => ?_, thermometerCount_eq_band v⟩
  rw [comparator_eq h8, decide_eq_true_iff] at hj
  rw [comparator_eq (hij.trans h8), decide_eq_true_iff]
  exact hij.trans hj

/-- Settles O58, by induction on the number of steps: each takes the head of the schedule, if there is one. -/
theorem properRunsNeverStop : Obligations.ProperRunsNeverStop := by
  intro k
  induction k with
  | zero => exact fun s _ => ⟨s, rfl, List.drop_zero.symm⟩
  | succ k ih =>
    intro s hs
    obtain ⟨t, hstep, htail⟩ := step_of_properSchedule hs
    obtain ⟨u, hrun, hdrop⟩ := ih t fun x hx => hs x (List.mem_of_mem_tail (htail ▸ hx))
    refine ⟨u, (run_succ_of_step (M := core) hstep).trans hrun, ?_⟩
    rw [hdrop, htail, List.drop_tail]

end Sys2Proof
end

section
/-! The facts of spec/42_decoder.md that its obligations turn on: the row a window selects (R153), the outputs as a
function of the lanes `[0, n)` (R169), what a row of DEC drives (R159 to R167), the unpack bit by bit (R155), the count of
the detector past lane 0 (R157), and the stages of the reference datapath (R173). -/

namespace Sys2Proof

/-! ## The row a window selects (R153) -/

theorem inForm_iff_formOf (w : Window) {n : Nat} (h1 : 1 ≤ n) (h9 : n ≤ 9) :
    Claims.InForm w n ↔ Claims.formOf (decode (.decWindow w)) = some n := by
  obtain ⟨-, hrow, -⟩ := formsPartitionTheWindows w
  exact hrow n h1 h9

/-- Which windows select which row of DEC, by the mask and match of its form on lane 0: no two rows have one form. -/
theorem selects_iff_inForm (w : Window) :
    (Claims.InForm w 1 ↔ ∃ payload tail, decode (.decWindow w) = .decL1 payload tail) ∧
    (Claims.InForm w 2 ↔ ∃ payload tail, decode (.decWindow w) = .decL2 payload tail) ∧
    (Claims.InForm w 3 ↔ ∃ payload tail, decode (.decWindow w) = .decL3 payload tail) ∧
    (Claims.InForm w 4 ↔ ∃ payload tail, decode (.decWindow w) = .decL4 payload tail) ∧
    (Claims.InForm w 5 ↔ ∃ payload tail, decode (.decWindow w) = .decL5 payload tail) ∧
    (Claims.InForm w 6 ↔ ∃ payload tail, decode (.decWindow w) = .decL6 payload tail) ∧
    (Claims.InForm w 7 ↔ ∃ payload tail, decode (.decWindow w) = .decL7 payload tail) ∧
    (Claims.InForm w 8 ↔ ∃ payload tail, decode (.decWindow w) = .decL8 payload tail) ∧
    (Claims.InForm w 9 ↔ ∃ value, decode (.decWindow w) = .decL9 value) := by
  simp (disch := decide) only [inForm_iff_formOf]
  cases decode (.decWindow w) <;> simp [Claims.formOf]

/-! ## The fields of `low` -/

/-- The payload field of a window is a field of `low` (R63, R151). -/
theorem toNat_memRead64_field (w : Window) {n : Nat} (h8 : n ≤ 8) :
    (memRead64 w 0).toNat / 2 ^ n % 2 ^ (7 * n) = (w.extractLsb' n (7 * n)).toNat := by
  have hn : 2 ^ 64 = 2 ^ n * 2 ^ (64 - n) := by rw [← Nat.pow_add, Nat.add_sub_cancel' (by omega)]
  rw [memRead64_eq, BitVec.extractLsb'_toNat, BitVec.extractLsb'_toNat, Nat.mul_zero, Nat.shiftRight_zero,
    Nat.shiftRight_eq_div_pow, hn, Nat.mod_mul_right_div_self, Nat.mod_mod_of_dvd _ (Nat.pow_dvd_pow 2 (by omega))]

/-- The lowest `n` bits of a window are in its lanes `[0, n)`. -/
theorem toNat_mod_eq_of_le {w w' : Window} {n : Nat} (h : le w' 0 n = le w 0 n) :
    w'.toNat % 2 ^ n = w.toNat % 2 ^ n := by
  have hdvd : 2 ^ n ∣ 2 ^ (8 * n) := Nat.pow_dvd_pow 2 (by omega)
  rw [le_eq, le_eq, Nat.mul_zero, Nat.pow_zero, Nat.div_one, Nat.div_one] at h
  rw [← Nat.mod_mod_of_dvd _ hdvd, h, Nat.mod_mod_of_dvd _ hdvd]

/-- The lowest set bit of lane 0 is the marker of the form (R65). -/
theorem lowest_set_bit_of_form {w : Window} {n : Nat} (h1 : 1 ≤ n) (h8 : n ≤ 8)
    (h : w.toNat % 2 ^ n = 2 ^ (n - 1)) :
    (lane w 0).getLsbD (n - 1) = true ∧ ∀ j, j < n - 1 → (lane w 0).getLsbD j = false := by
  have hbit (j : Nat) (hj : j < n) : (lane w 0).getLsbD j = decide (j = n - 1) := by
    rw [getLsbD_lane_zero w (by omega), getLsbD_of_form h j hj]
  refine ⟨?_, fun j hj => ?_⟩
  · rw [hbit _ (by omega), decide_eq_true rfl]
  · rw [hbit j (by omega), decide_eq_false hj.ne]

namespace Machine

theorem DecOut.eq_of_fields {o o' : DecOut} (hvalue : o.value.toNat = o'.value.toNat)
    (hlen : o.len.toNat = o'.len.toNat) : o = o' := by
  cases o
  cases o'
  exact (DecOut.mk.injEq ..).mpr ⟨BitVec.eq_of_toNat_eq hvalue, BitVec.eq_of_toNat_eq hlen⟩

/-! ## The lanes that DEC depends on (R169) -/

/-- DEC depends on the lanes `[0, n)` only, `n` the length it gives; for `n = 9` they are the window. -/
theorem decUnit_eq_of_lanes {w w' : Window} (h : ∀ i, i < (decUnit w).len.toNat → lane w' i = lane w i) :
    decUnit w' = decUnit w := by
  obtain ⟨n, h1, h8, hform⟩ | hzero := form_total w
  · obtain ⟨hval, hlen⟩ := toNat_decUnit_short h1 h8 hform
    rw [hlen] at h
    have hle : le w' 0 n = le w 0 n := le_congr fun j hj => by rw [Nat.zero_add, h j hj]
    obtain ⟨hval', hlen'⟩ := toNat_decUnit_short h1 h8 ((toNat_mod_eq_of_le hle).trans hform)
    exact DecOut.eq_of_fields (by rw [hval', hle, hval]) (by rw [hlen', hlen])
  · rw [(decUnit_long hzero).2] at h
    rw [window_ext h]

/-- Only form L9 has length 9. -/
theorem toNat_mod_of_decUnit_len_nine {w : Window} (h : (decUnit w).len.toNat = 9) : w.toNat % 2 ^ 8 = 0 := by
  obtain ⟨n, h1, h8, hform⟩ | hzero := form_total w
  · rw [(toNat_decUnit_short h1 h8 hform).2] at h
    omega
  · exact hzero

/-- A window of length 9 is the L9 window of its value, so all nine lanes matter. -/
theorem eq_windowL9_of_decUnit_len_nine {w : Window} (h : (decUnit w).len.toNat = 9) :
    w = windowL9 (decUnit w).value := by
  have hzero := toNat_mod_of_decUnit_len_nine h
  rw [(decUnit_long hzero).1, ← eq_windowL9 hzero]

/-! ## What a row of DEC drives (R159 to R167) -/

theorem decFrame_driveDec (s : State) (w : Window) (d : DecOut) : Claims.DecFrame s (s.driveDec w d) w :=
  ⟨rfl, rfl, rfl, rfl, rfl, rfl, rfl⟩

/-- A row of DEC drives the function of R150 on the window its fields lay out. -/
theorem exec_of_decRow {i : Instr} {w : Window} (hi : i.WellFormed) (hw : encode i = .decWindow w) (s : State) :
    exec i s = .next (s.driveDec w (decUnit w)) := by
  rw [← exec_decode_decWindow, ← hw, decode_encode hi]

theorem inForm_of_decRow {i : Instr} {w : Window} {n : Nat} (hi : i.WellFormed) (hw : encode i = .decWindow w)
    (hn : Claims.formOf i = some n) : 1 ≤ n ∧ Claims.InForm w n := by
  obtain ⟨k, h1, -, hform, hrow⟩ := exists_inForm_formOf w
  rw [← hw, decode_encode hi, hn, Option.some_inj] at hrow
  exact hrow ▸ ⟨h1, hform⟩

/-- A row of a form `Ln`, `n` in `[1, 8]`, unpacks the payload that its window holds from bit `n` upward and adds
`Offset[n-1]`, which stays in band `B(n-1)`. -/
theorem decodesShort_of_row {i : Instr} {w : Window} {n p hi : Nat} (hwf : i.WellFormed)
    (hw : encode i = .decWindow w) (hn : Claims.formOf i = some n) (h8 : n ≤ 8)
    (hp : (w.extractLsb' n (7 * n)).toNat = p) (hhi : offset n = hi + 1) (s : State) :
    Claims.DecodesShort i w p (left n) (right n) n (offset (n - 1)) hi s := by
  obtain ⟨h1, hinForm⟩ := inForm_of_decRow hwf hw hn
  have hform := (inForm_iff w h8).1 hinForm
  have hfield := (toNat_memRead64_field w h8).trans hp
  have hval := toNat_decUnit_value_field h1 h8 hform
  rw [hfield] at hval
  have hoff : offset n = offset (n - 1) + 2 ^ (7 * n) := by
    rw [← Nat.sub_add_cancel h1, offset_succ, Nat.add_sub_cancel]
  have hlt : p < 2 ^ (7 * n) := hp ▸ BitVec.isLt _
  refine ⟨?_, (toNat_unpack _ h8).trans hfield, hfield.symm, _, exec_of_decRow hwf hw s, hval, ?_, ?_,
    (toNat_decUnit_short h1 h8 hform).2, decFrame_driveDec s w _⟩
  · obtain ⟨hset, hlow⟩ := lowest_set_bit_of_form h1 h8 hform
    exact ctz64_of_lowest_set_bit (by omega) hset hlow
  · rw [State.driveDec_decValue, hval]
    exact Nat.le_add_left _ _
  · rw [State.driveDec_decValue, hval]
    omega

/-- A window whose first bytes hold a whole encoding decodes as those bytes alone do. -/
theorem startDecodesTo_of_decUnit {bytes : List Byte} {value n : Nat} (hn : n ≤ bytes.length)
    (h : (decUnit (windowOfBytes bytes)).value.toNat = value ∧ (decUnit (windowOfBytes bytes)).len.toNat = n) :
    Claims.StartDecodesTo bytes value n := by
  intro w hw s
  obtain ⟨hvalue, hlen⟩ := h
  have h9 := (toNat_decUnit_len_mem (windowOfBytes bytes)).2
  have hdec : decUnit w = decUnit (windowOfBytes bytes) := decUnit_eq_of_lanes fun i hi => by
    rw [lane_windowOfBytes _ _ (by omega)]
    exact hw i (by omega)
  exact ⟨_, exec_decode_decWindow w s, by rw [State.driveDec_decValue, hdec, hvalue],
    by rw [State.driveDec_decLen, hdec, hlen]⟩

/-! ## The unpack, bit by bit (R155) -/

theorem left_eq {n : Nat} (h8 : n ≤ 8) : left n + 8 * n = 64 := by
  rw [left]
  omega

theorem getLsbD_shiftLeft_left (low : Value) {n j : Nat} (h8 : n ≤ 8) (hj : j < 8 * n) :
    (low <<< left n).getLsbD (j + 64 - 8 * n) = low.getLsbD j := by
  have hleft := left_eq h8
  rw [BitVec.getLsbD_shiftLeft, show j + 64 - 8 * n = j + left n by omega, Nat.add_sub_cancel,
    decide_eq_true (by omega : j + left n < 64), decide_eq_false (by omega : ¬ j + left n < left n), Bool.not_false,
    Bool.true_and, Bool.true_and]

theorem getLsbD_unpack (low : Value) {n : Nat} (h8 : n ≤ 8) (j : Nat) :
    (unpack low (left n) (right n)).getLsbD j = (decide (j < 7 * n) && low.getLsbD (j + n)) := by
  rw [BitVec.getLsbD, toNat_unpack low h8, Nat.testBit_mod_two_pow, Nat.testBit_div_two_pow, BitVec.getLsbD]

/-! ## The count of the detector for form L9 (R157) -/

theorem getLsbD_low_windowL9 (v : Value) {j : Nat} (hj : j < 64) :
    (memRead64 (windowL9 v) 0).getLsbD j = (decide (8 ≤ j) && v.getLsbD (j - 8)) := by
  rw [getLsbD_memRead64, decide_eq_true hj, Bool.true_and, Nat.mul_zero, Nat.zero_add, windowL9, BitVec.getLsbD_append]
  split
  · rw [decide_eq_false (by omega), Bool.false_and, BitVec.getLsbD_zero]
  · rw [decide_eq_true (by omega), Bool.true_and]

theorem lane_zero_windowL9 (v : Value) : lane (windowL9 v) 0 = 0 := by
  rw [lane_zero_eq_zero_iff, toNat_windowL9, Nat.mul_mod_left]

/-- The lowest set bit of the value sits 8 bits higher in `low`; bit 56 of the value is the first past it. -/
theorem ctz64_low_windowL9_twoPow {z : Nat} (h8 : 8 ≤ z) (h64 : z ≤ 64) :
    ctz64 (memRead64 (windowL9 (BitVec.twoPow 64 (z - 8))) 0) = z := by
  obtain hlt | rfl := Nat.lt_or_eq_of_le h64
  · have hbit (j : Nat) (hj : j < 64) :
        (memRead64 (windowL9 (BitVec.twoPow 64 (z - 8))) 0).getLsbD j = decide (j = z) := by
      rw [getLsbD_low_windowL9 _ hj, BitVec.getLsbD_twoPow, decide_eq_true (by omega : z - 8 < 64), Bool.true_and,
        ← Bool.decide_and, decide_eq_decide]
      omega
    rw [ctz64_eq_iff hlt, hbit z hlt]
    exact ⟨decide_eq_true rfl, fun j hj => by rw [hbit j (by omega), decide_eq_false (by omega)]⟩
  · decide

theorem decodesLong_decL9 (v : Value) (s : State) : Claims.DecodesLong (.decL9 v) (windowL9 v) s := by
  have hzero := lane_zero_windowL9 v
  obtain ⟨hval, hlen⟩ := decUnit_long ((lane_zero_eq_zero_iff _).1 hzero)
  refine ⟨eight_le_ctz64_of_lane_zero hzero, _, exec_of_decRow rfl rfl s, ?_, hlen, decFrame_driveDec s _ _⟩
  rw [State.driveDec_decValue, hval, toNat_memRead64]

/-! ## The stages of the reference datapath (R173) -/

/-- The priority encoder finds the marker of a window in form `Ln`. -/
theorem priorityEncoder_of_form {w : Window} {n : Nat} (h1 : 1 ≤ n) (h8 : n ≤ 8)
    (h : w.toNat % 2 ^ n = 2 ^ (n - 1)) : priorityEncoder (lane w 0) = n - 1 := by
  obtain ⟨hset, hlow⟩ := lowest_set_bit_of_form h1 h8 h
  have hfind : (List.range 8).find? (lane w 0).getLsbD = some (n - 1) :=
    List.find?_range_eq_some.2 ⟨hset, List.mem_range.2 (by omega), fun j hj => by rw [hlow j hj, Bool.not_false]⟩
  rw [priorityEncoder, hfind, Option.getD_some]

theorem lane_zero_ne_of_form {w : Window} {n : Nat} (h1 : 1 ≤ n) (h8 : n ≤ 8)
    (h : w.toNat % 2 ^ n = 2 ^ (n - 1)) : lane w 0 ≠ 0x00#8 := by
  intro hzero
  obtain ⟨hset, -⟩ := lowest_set_bit_of_form h1 h8 h
  rw [hzero, BitVec.getLsbD_zero] at hset
  cases hset

/-- The field selection is the pair of shifts. -/
theorem selectField_eq_unpack (low : Value) {n : Nat} (h8 : n ≤ 8) :
    selectField low n = unpack low (left n) (right n) := by
  apply BitVec.eq_of_toNat_eq
  rw [toNat_unpack low h8, selectField, BitVec.toNat_setWidth_of_le (by omega), BitVec.extractLsb'_toNat,
    Nat.shiftRight_eq_div_pow]

theorem decDatapath_eq_decUnit (w : Window) : decDatapath w = decUnit w := by
  obtain ⟨n, h1, h8, hform⟩ | hzero := form_total w
  · rw [decUnit_of_form h1 h8 hform, decShort, memRead64_eq]
    simp only [decDatapath, lane_zero_ne_of_form h1 h8 hform, if_false, priorityEncoder_of_form h1 h8 hform,
      Nat.sub_add_cancel h1, selectField_eq_unpack _ h8]
    rfl
  · have hlane : lane w 0 = 0x00#8 := (lane_zero_eq_zero_iff w).2 hzero
    rw [decUnit_of_lane_zero hzero, decLong, memRead64_eq]
    simp only [decDatapath, hlane, if_true]
    rfl

end Machine

end Sys2Proof
end

section
/-! The obligations of spec/42_decoder.md: decoding an encoding and encoding a decoded value (R171, R172), the nine rows of
DEC (R157, R159 to R167), the stages (R155, R156), totality (R168), the tail (R169), the supernormal forms (R170) and the
reference datapath (R173). -/

namespace Sys2Proof

open Sys2Proof.Machine

/-- Settles O44: the window ENC drives is in the form of its length, whose payload is the biased value. -/
theorem roundTrip : Obligations.RoundTrip := by
  have hunit (v : Value) (tail : Window) : decUnit (encUnit v tail).window = ⟨v, (encUnit v tail).len⟩ := by
    obtain ⟨hval, hlen⟩ := decUnit_encUnit v tail
    exact DecOut.eq_of_fields (congrArg _ hval) (hlen.trans (toNat_encUnit_len v tail).symm)
  refine ⟨hunit, fun v s s' => ⟨_, _, exec_decode_encValue v s, exec_decode_decWindow _ s', ?_, ?_⟩⟩
  · rw [State.driveDec_decValue, State.driveEnc_encWindow, hunit]
  · rw [State.driveDec_decLen, State.driveEnc_encWindow, hunit, State.driveEnc_encLen]

/-- Settles O45: a short form decodes into its own band and is the encoding of that value; an L9 window is its value's L9
window, which ENC drives for band B8 only. -/
theorem canonicalReencoding : Obligations.CanonicalReencoding := by
  refine ⟨fun w s s' => ⟨_, _, exec_decode_decWindow w s, exec_decode_encValue _ s', fun n h1 h8 hn => ?_, fun h9 => ?_⟩,
    ?_, ?_⟩
  · have hform := (inForm_iff w h8).1 hn
    have hlen := (toNat_decUnit_short h1 h8 hform).2
    obtain ⟨hband, hlanes⟩ := encUnit_decUnit_of_form h1 h8 hform
    refine ⟨hlen, Nat.eq_sub_of_add_eq hband, BitVec.eq_of_toNat_eq ?_, fun i hi => (hlanes _ i hi).symm⟩
    rw [State.driveEnc_encLen, State.driveDec_decLen, State.driveDec_decValue, toNat_encUnit_len, hband, hlen]
  · have hlen := toNat_decUnit_len_of_inForm (by omega) le_rfl h9
    have hle := band_le (decUnit w).value
    have h8 := band_eq_eight_iff (decUnit w).value
    simp only [State.driveDec_decValue, State.driveEnc_encWindow, State.driveEnc_encLen, toNat_encUnit_len]
    refine ⟨fun hge => ⟨?_, by omega⟩, fun hlt => by omega⟩
    rw [window_encUnit_long _ (h8.2 hge), ← eq_windowL9_of_decUnit_len_nine hlen]
  · exact startDecodesTo_of_decUnit (by decide) (by decide)
  · exact givesLanes_of_row (decode_wellFormed _) (encode_decode _) (by decide)

/-- Settles O10, by what a row of a short form drives. -/
theorem decL1UnpacksOneByte : Obligations.DecL1UnpacksOneByte := by
  refine ⟨fun w => ?_, fun payload tail s => ?_, ?_, ?_, ?_⟩
  · obtain ⟨hrow, -⟩ := selects_iff_inForm w
    exact hrow
  · exact decodesShort_of_row rfl rfl rfl (by omega) (congrArg _ (extractLsb'_payload tail payload _)) (by decide) s
  all_goals exact startDecodesTo_of_decUnit (by decide) (by decide)

/-- Settles O11, by what a row of a short form drives. -/
theorem decL2UnpacksTwoBytes : Obligations.DecL2UnpacksTwoBytes := by
  refine ⟨fun w => ?_, fun payload tail s => ?_, ?_, ?_, ?_, ?_, by decide⟩
  · obtain ⟨-, hrow, -⟩ := selects_iff_inForm w
    exact hrow
  · exact decodesShort_of_row rfl rfl rfl (by omega) (congrArg _ (extractLsb'_payload tail payload _)) (by decide) s
  all_goals exact startDecodesTo_of_decUnit (by decide) (by decide)

/-- Settles O12, by what a row of a short form drives. -/
theorem decL3UnpacksThreeBytes : Obligations.DecL3UnpacksThreeBytes := by
  refine ⟨fun w => ?_, fun payload tail s => ?_, ?_, ?_, ?_⟩
  · obtain ⟨-, -, hrow, -⟩ := selects_iff_inForm w
    exact hrow
  · exact decodesShort_of_row rfl rfl rfl (by omega) (congrArg _ (extractLsb'_payload tail payload _)) (by decide) s
  all_goals exact startDecodesTo_of_decUnit (by decide) (by decide)

/-- Settles O13, by what a row of a short form drives. -/
theorem decL4UnpacksFourBytes : Obligations.DecL4UnpacksFourBytes := by
  refine ⟨fun w => ?_, fun payload tail s => ?_, ?_, ?_, ?_⟩
  · obtain ⟨-, -, -, hrow, -⟩ := selects_iff_inForm w
    exact hrow
  · exact decodesShort_of_row rfl rfl rfl (by omega) (congrArg _ (extractLsb'_payload tail payload _)) (by decide) s
  all_goals exact startDecodesTo_of_decUnit (by decide) (by decide)

/-- Settles O14, by what a row of a short form drives. -/
theorem decL5UnpacksFiveBytes : Obligations.DecL5UnpacksFiveBytes := by
  refine ⟨fun w => ?_, fun payload tail s => ?_, ?_, ?_, ?_⟩
  · obtain ⟨-, -, -, -, hrow, -⟩ := selects_iff_inForm w
    exact hrow
  · exact decodesShort_of_row rfl rfl rfl (by omega) (congrArg _ (extractLsb'_payload tail payload _)) (by decide) s
  all_goals exact startDecodesTo_of_decUnit (by decide) (by decide)

/-- Settles O15, by what a row of a short form drives. -/
theorem decL6UnpacksSixBytes : Obligations.DecL6UnpacksSixBytes := by
  refine ⟨fun w => ?_, fun payload tail s => ?_, ?_, ?_, ?_⟩
  · obtain ⟨-, -, -, -, -, hrow, -⟩ := selects_iff_inForm w
    exact hrow
  · exact decodesShort_of_row rfl rfl rfl (by omega) (congrArg _ (extractLsb'_payload tail payload _)) (by decide) s
  all_goals exact startDecodesTo_of_decUnit (by decide) (by decide)

/-- Settles O16, by what a row of a short form drives. -/
theorem decL7UnpacksSevenBytes : Obligations.DecL7UnpacksSevenBytes := by
  refine ⟨fun w => ?_, fun payload tail s => ?_, ?_, ?_, ?_⟩
  · obtain ⟨-, -, -, -, -, -, hrow, -⟩ := selects_iff_inForm w
    exact hrow
  · exact decodesShort_of_row rfl rfl rfl (by omega) (congrArg _ (extractLsb'_payload tail payload _)) (by decide) s
  all_goals exact startDecodesTo_of_decUnit (by decide) (by decide)

/-- Settles O17, by what a row of a short form drives. -/
theorem decL8UnpacksEightBytes : Obligations.DecL8UnpacksEightBytes := by
  refine ⟨fun w => ?_, fun payload tail s => ?_, ?_, ?_, ?_⟩
  · obtain ⟨-, -, -, -, -, -, -, hrow, -⟩ := selects_iff_inForm w
    exact hrow
  · exact decodesShort_of_row rfl rfl rfl (by omega) (congrArg _ (extractLsb'_payload tail payload _)) (by decide) s
  all_goals exact startDecodesTo_of_decUnit (by decide) (by decide)

/-- Settles O18: the row of form L9 drives the raw value; a single bit of it sets the count of the detector. -/
theorem decL9ReadsRawValue : Obligations.DecL9ReadsRawValue := by
  refine ⟨fun w => ?_, decodesLong_decL9, by decide, fun v hlow => ?_,
    fun z h8 h64 => ⟨_, ctz64_low_windowL9_twoPow h8 h64⟩, ?_, ?_, ?_, ?_, ?_⟩
  · obtain ⟨-, -, -, -, -, -, -, -, hrow⟩ := selects_iff_inForm w
    exact (inForm_nine_iff w).symm.trans hrow
  · rw [hlow]
    decide
  all_goals exact startDecodesTo_of_decUnit (by decide) (by decide)

/-- Settles O38, by the bits of the two shifts. -/
theorem unpackSelectsThePayload : Obligations.UnpackSelectsThePayload := by
  refine fun low n _ h8 => ⟨toNat_unpack low h8, fun j hj => getLsbD_shiftLeft_left low h8 hj, fun j hlo hhi => ?_,
    fun j hj => ?_⟩
  · rw [getLsbD_unpack low h8, decide_eq_true (by omega), Bool.true_and, Nat.sub_add_cancel hlo]
  · rw [getLsbD_unpack low h8, decide_eq_false (by omega), Bool.false_and]

/-- Settles O39: the sum lies between `Offset[n-1]` and `Offset[n]`, and the last offset fits in 64 bits. -/
theorem unbiasNeverCarries : Obligations.UnbiasNeverCarries := by
  intro u n h1 h8 hu
  obtain ⟨hsum, hlt⟩ := toNat_unbias h1 h8 hu
  have hmono : offset n ≤ offset 8 := offset_strictMono.monotone h8
  refine ⟨hsum, by omega, by omega, by decide, band_of_bounds (by omega) (by omega) ?_⟩
  rwa [hsum, bandEnd, if_pos (by omega), Nat.sub_add_cancel h1]

/-- Settles O40: the pair is `decUnit` of the window, which any one state shows. -/
theorem decoderIsTotal : Obligations.DecoderIsTotal := by
  refine fun w => ⟨decUnit w, fun s => ⟨_, exec_decode_decWindow w s, rfl, rfl⟩, fun o ho => ?_⟩
  obtain ⟨t, ht, hvalue, hlen⟩ := ho State.reset
  rw [exec_decode_decWindow] at ht
  cases ht
  exact DecOut.eq_of_fields (congrArg _ hvalue.symm) (congrArg _ hlen.symm)

/-- Settles O41: equal lanes `[0, n)` give equal outputs, and a window of length 9 is its value's L9 window. -/
theorem tailLanesDoNotMatter : Obligations.TailLanesDoNotMatter := by
  refine fun w w' s s' => ⟨_, _, exec_decode_decWindow w s, exec_decode_decWindow w' s', fun _ hlanes => ?_, fun h9 => ?_⟩
  · have hdec : decUnit w' = decUnit w := decUnit_eq_of_lanes hlanes
    exact ⟨congrArg DecOut.value hdec, congrArg DecOut.len hdec⟩
  · have hzero := toNat_mod_of_decUnit_len_nine h9
    refine ⟨(lane_zero_eq_zero_iff w).2 hzero, (decUnit_long hzero).1, fun hlen hvalue => ?_⟩
    rw [State.driveDec_decLen, State.driveDec_decLen] at hlen
    rw [State.driveDec_decValue, State.driveDec_decValue] at hvalue
    rw [eq_windowL9_of_decUnit_len_nine h9, ← hvalue]
    exact eq_windowL9_of_decUnit_len_nine (hlen ▸ h9)

/-- Settles O42, by what DEC gives for a window whose lane 0 is zero, and for the L9 window of a value. -/
theorem supernormalFormsAreAccepted : Obligations.SupernormalFormsAreAccepted := by
  refine ⟨fun w s hzero => ⟨_, exec_decode_decWindow w s, ?_⟩, fun v s => ⟨_, exec_decode_decWindow _ s, ?_⟩⟩
  · exact decUnit_long ((lane_zero_eq_zero_iff w).1 hzero)
  · exact decUnit_windowL9 v

/-- Settles O46, by the row of the window's form. -/
theorem decRowsAgreeWithTheUnit : Obligations.DecRowsAgreeWithTheUnit := exec_decode_decWindow

/-- Settles O47: the priority encoder finds the form, and each stage is the unit's. -/
theorem decoderDatapathConforms : Obligations.DecoderDatapathConforms := decDatapath_eq_decUnit

end Sys2Proof
end

section
/-! The facts of spec/60_exceptions.md that its obligations turn on: the lanes of a framed window (R201), and a
well-formed operation as the one that some word on an input port selects (R200). -/

namespace Sys2Proof

namespace Machine

/-- A framed window carries the stream in its lanes, and the pad past the stream's end (R201). -/
theorem lane_frameWindow (pad : Window) (bytes : List Byte) {j : Nat} (hj : j < 9) :
    lane (frameWindow pad bytes) j = if j < bytes.length then bytes.getD j 0 else lane pad j := by
  have htake : j < (bytes.take 9).length ↔ j < bytes.length := by
    rw [List.length_take]
    omega
  rw [frameWindow, lane_frameFrom _ _ _ _ hj]
  simp only [Nat.zero_le, true_and, Nat.zero_add, Nat.sub_zero, htake, List.getD_eq_getElem?_getD,
    List.getElem?_take_of_lt hj]

/-- A window framed from the lanes `[0, n)` of another has them, whatever follows (R225). -/
theorem lane_frameWindow_map_lane (w pad : Window) (rest : List Byte) {n j : Nat} (hj : j < n) (h9 : n ≤ 9) :
    lane (frameWindow pad ((List.range n).map (lane w) ++ rest)) j = lane w j := by
  have hlen : j < ((List.range n).map (lane w)).length := by simpa using hj
  rw [lane_frameWindow _ _ (by omega), if_pos (List.length_append ▸ Nat.lt_add_right _ hlen),
    List.getD_append _ _ _ _ hlen, List.getD_eq_getElem _ _ hlen, List.getElem_map, List.getElem_range]

/-- `enc_len` lies in `[1, 9]` for every value (R127). -/
theorem toNat_encUnit_len_mem (v : Value) (tail : Window) :
    1 ≤ (encUnit v tail).len.toNat ∧ (encUnit v tail).len.toNat ≤ 9 := by
  have hb := band_le v
  rw [toNat_encUnit_len]
  omega

end Machine

/-- The well-formed operations are those that words select. -/
theorem exists_decode_eq {i : Instr} (h : i.WellFormed) : ∃ x, decode x = i := ⟨encode i, decode_encode h⟩

/-- A value selects a row of ENC (R72). -/
theorem bandOf_decode_encValue_ne_none (v : Value) : Claims.bandOf (decode (.encValue v)) ≠ none := by
  rw [decode, bandOf_decodeValue]
  exact Option.some_ne_none _

/-- A window selects a row of DEC (R69). -/
theorem formOf_decode_decWindow_ne_none (w : Window) : Claims.formOf (decode (.decWindow w)) ≠ none := by
  obtain ⟨n, -, -, -, hn⟩ := exists_inForm_formOf w
  rw [hn]
  exact Option.some_ne_none n

end Sys2Proof
end

section
/-! The obligations of spec/60_exceptions.md: an encoding framed by the host decodes (R201), and no operation raises an
exception (R200). -/

namespace Sys2Proof

open Sys2Proof.Machine

/-- Settles O59: the framed window has the lanes `[0, n)` of the window ENC drives, and DEC depends on no others. -/
theorem framedEncodingDecodes : Obligations.FramedEncodingDecodes := by
  intro v tail pad rest s
  have hround : decUnit (encUnit v tail).window = ⟨v, (encUnit v tail).len⟩ := roundTrip.1 v tail
  have h9 := (toNat_encUnit_len_mem v tail).2
  have hdec : decUnit (frameWindow pad
      ((List.range (encUnit v tail).len.toNat).map (lane (encUnit v tail).window) ++ rest)) =
        ⟨v, (encUnit v tail).len⟩ := by
    rw [← hround]
    refine decUnit_eq_of_lanes fun i hi => ?_
    rw [hround] at hi
    exact lane_frameWindow_map_lane _ pad rest hi h9
  exact ⟨_, exec_decode_decWindow _ s, by rw [State.driveDec_decValue, hdec], by rw [State.driveDec_decLen, hdec]⟩

/-- Settles O50, by the port of the word that selects the operation: `Fault` has no constructor, and each unit drives its
own ports only. -/
theorem noOperationRaisesAnException : Obligations.NoOperationRaisesAnException := by
  refine ⟨nofun, fun i s hi => ?_⟩
  obtain ⟨x, rfl⟩ := exists_decode_eq hi
  cases x with
  | encValue v =>
    refine ⟨_, exec_decode_encValue v s, rfl, fun _ => ?_, fun h => absurd h (bandOf_decode_encValue_ne_none v)⟩
    exact ⟨rfl, rfl, rfl, rfl, toNat_encUnit_len_mem v s.tailDraw⟩
  | decWindow w =>
    refine ⟨_, exec_decode_decWindow w s, rfl, fun h => absurd h (formOf_decode_decWindow_ne_none w), fun _ => ?_⟩
    exact ⟨rfl, rfl, rfl, rfl, rfl, toNat_decUnit_len_mem w⟩

end Sys2Proof
end

section
/-! The facts of spec/70_reset_and_hazards.md that its obligation turns on: a step by the hazard of what is presented
(R52, R222), and the hold that an elapsed time gives (R222, U5). -/

namespace Sys2Proof.Machine

/-- A hazardous presentation is refused by the name of its hazard. -/
theorem step_refused {s : State} {x : Stimulus} {rest : List Stimulus} {r : Refusal} (hs : s.schedule = x :: rest)
    (hx : x.hazard = some r) : step s = .refused r := by
  rw [step_cons hs, present_hazard hx]

/-- A presentation without a hazard completes. -/
theorem step_completes {s : State} {x : Stimulus} {rest : List Stimulus} (hs : s.schedule = x :: rest)
    (hx : x.hazard = none) : ∃ t, step s = .next t := by
  obtain ⟨t, ht, -⟩ := exec_decode_completes x.port { s with schedule := rest }
  exact ⟨t, by rw [step_cons hs, present_proper hx, ht]⟩

theorem holdFor_eq_stable_iff {elapsed : Nat} : holdFor elapsed = .stable ↔ Config.tPd ≤ elapsed := by
  refine ⟨fun h => Nat.le_of_not_lt fun hlt => ?_, holdFor_of_le⟩
  rw [holdFor_of_lt hlt] at h
  cases h

theorem holdFor_eq_early_iff {elapsed : Nat} : holdFor elapsed = .early ↔ elapsed < Config.tPd := by
  refine ⟨fun h => Nat.lt_of_not_le fun hle => ?_, holdFor_of_lt⟩
  rw [holdFor_of_le hle] at h
  cases h

end Sys2Proof.Machine
end

section
/-! The obligation of spec/70_reset_and_hazards.md: what a step refuses, and what it completes (R52, R222). -/

namespace Sys2Proof

open Sys2Proof.Machine

/-- Settles O51, by the hazard of each stimulus: a race whatever the hold, a bad hold without a race, or none. -/
theorem hazardsAreRefused : Obligations.HazardsAreRefused := by
  refine ⟨fun s rest v w => ⟨?race, ?encEarly, ?decEarly, ?encUndriven, ?decUndriven, ?encStable, ?decStable⟩,
    fun elapsed => ⟨holdFor_eq_stable_iff, holdFor_eq_early_iff⟩⟩
  case race => exact fun hold hs => step_refused hs rfl
  case encEarly | decEarly | encUndriven | decUndriven => exact fun hs => step_refused hs rfl
  case encStable | decStable => exact fun hs => step_completes hs rfl

end Sys2Proof
end
